-- ==== Sys2Proof/Word.lean ====
section
/-! DEFINITION. The word types (00_scope.md R6, R9). Bit i of a word v is `v.getLsbD i`, bit 0 the least significant (R9). -/

namespace Sys2Proof

/-- A 32-bit value: register contents, operands, results, instruction words (R6). -/
abbrev Word := BitVec 32

/-- A byte of an instruction word as the host assembles it (20_memory.md R34). -/
abbrev Byte := BitVec 8

/-- A register index, 0 to 15; 13 is SP, 14 is LR, 15 is PC (10_state.md R16). -/
abbrev RegId := Fin 16

/-- The program counter is register 15 (R16, R19). -/
abbrev pcReg : RegId := 15

end Sys2Proof
end

