-- ==== Sys2Proof/Syntax.lean ====
section
/-! DEFINITION. The instructions as syntax: one constructor of `Instr` per row of spec/opcode_table.json, and the
fields of a decoded data-processing word (30_encoding.md). -/

namespace Sys2Proof

/-- The condition named by bits 31:28 (30_encoding.md R49). CS is also HS and CC is also LO (40_condition.md R63);
`reserved` is the 16th encoding, which every execution rejects (R53, R62). -/
inductive Cond where
  | eq | ne | cs | cc | mi | pl | vs | vc | hi | ls | ge | lt | gt | le | al | reserved
deriving DecidableEq, Repr

/-- The four shift types (R46). -/
inductive ShiftType where
  | lsl | lsr | asr | ror
deriving DecidableEq, Repr

/-- The operand-2 descriptor of R47: not a value, it is resolved against the state when the word executes (R67, C1). -/
inductive Operand2 where
  /-- `Imm(rotate, imm8)`: an 8-bit value rotated right by twice the rotate field (R44, R50). -/
  | imm (rotate : Nat) (imm8 : BitVec 8)
  /-- `RegImm(Rm, type, amount)`: a register shifted by an immediate amount (R45). -/
  | regImm (rm : RegId) (shift : ShiftType) (amount : Nat)
  /-- `RegReg(Rm, type, Rs)`: a register shifted by the low 8 bits of another register (R45, R69). -/
  | regReg (rm : RegId) (shift : ShiftType) (rs : RegId)
deriving DecidableEq, Repr

/-- The 16 operations, in the order that gives each its opcode value (R48). -/
inductive Opcode where
  | and | eor | sub | rsb | add | adc | sbc | rsc | tst | teq | cmp | cmn | orr | mov | bic | mvn
deriving DecidableEq, Repr

/-- What `decode(word)` returns (R47): a transient value, no part of the state (10_state.md R29). -/
structure DecodedInstruction where
  cond     : Cond
  opcode   : Opcode
  setFlags : Bool
  rn       : RegId
  rd       : RegId
  op2      : Operand2
deriving DecidableEq, Repr

/-- A data-processing instruction, one constructor per row of the opcode table. `setFlags` is the S bit; the rows of
TST, TEQ, CMP and CMN fix it to 1. The Rn field of MOV and MVN and the Rd field of the compares are kept although the
operation does not use them: they are bits of the word, and Rd = 15 matters for a compare (R56, D16). -/
inductive Instr where
  | and (cond : Cond) (setFlags : Bool) (rn rd : RegId) (op2 : Operand2)
  | eor (cond : Cond) (setFlags : Bool) (rn rd : RegId) (op2 : Operand2)
  | sub (cond : Cond) (setFlags : Bool) (rn rd : RegId) (op2 : Operand2)
  | rsb (cond : Cond) (setFlags : Bool) (rn rd : RegId) (op2 : Operand2)
  | add (cond : Cond) (setFlags : Bool) (rn rd : RegId) (op2 : Operand2)
  | adc (cond : Cond) (setFlags : Bool) (rn rd : RegId) (op2 : Operand2)
  | sbc (cond : Cond) (setFlags : Bool) (rn rd : RegId) (op2 : Operand2)
  | rsc (cond : Cond) (setFlags : Bool) (rn rd : RegId) (op2 : Operand2)
  | tst (cond : Cond) (rn rd : RegId) (op2 : Operand2)
  | teq (cond : Cond) (rn rd : RegId) (op2 : Operand2)
  | cmp (cond : Cond) (rn rd : RegId) (op2 : Operand2)
  | cmn (cond : Cond) (rn rd : RegId) (op2 : Operand2)
  | orr (cond : Cond) (setFlags : Bool) (rn rd : RegId) (op2 : Operand2)
  | mov (cond : Cond) (setFlags : Bool) (rn rd : RegId) (op2 : Operand2)
  | bic (cond : Cond) (setFlags : Bool) (rn rd : RegId) (op2 : Operand2)
  | mvn (cond : Cond) (setFlags : Bool) (rn rd : RegId) (op2 : Operand2)
deriving DecidableEq, Repr

/-- The fields of an instruction, with S = 1 for the compares (opcode table, R52). -/
def Instr.toDecoded : Instr → DecodedInstruction
  | .and c s n d o => ⟨c, .and, s, n, d, o⟩
  | .eor c s n d o => ⟨c, .eor, s, n, d, o⟩
  | .sub c s n d o => ⟨c, .sub, s, n, d, o⟩
  | .rsb c s n d o => ⟨c, .rsb, s, n, d, o⟩
  | .add c s n d o => ⟨c, .add, s, n, d, o⟩
  | .adc c s n d o => ⟨c, .adc, s, n, d, o⟩
  | .sbc c s n d o => ⟨c, .sbc, s, n, d, o⟩
  | .rsc c s n d o => ⟨c, .rsc, s, n, d, o⟩
  | .tst c n d o => ⟨c, .tst, true, n, d, o⟩
  | .teq c n d o => ⟨c, .teq, true, n, d, o⟩
  | .cmp c n d o => ⟨c, .cmp, true, n, d, o⟩
  | .cmn c n d o => ⟨c, .cmn, true, n, d, o⟩
  | .orr c s n d o => ⟨c, .orr, s, n, d, o⟩
  | .mov c s n d o => ⟨c, .mov, s, n, d, o⟩
  | .bic c s n d o => ⟨c, .bic, s, n, d, o⟩
  | .mvn c s n d o => ⟨c, .mvn, s, n, d, o⟩

/-- The condition field of an instruction. -/
abbrev Instr.cond (i : Instr) : Cond := i.toDecoded.cond

/-- The S bit of an instruction; 1 for the compares. -/
abbrev Instr.setFlags (i : Instr) : Bool := i.toDecoded.setFlags

/-- The Rd field of an instruction. -/
abbrev Instr.rd (i : Instr) : RegId := i.toDecoded.rd

/-- The Rn field of an instruction. -/
abbrev Instr.rn (i : Instr) : RegId := i.toDecoded.rn

/-- The operand-2 descriptor of an instruction. -/
abbrev Instr.op2 (i : Instr) : Operand2 := i.toDecoded.op2

/-- The operation of an instruction. -/
abbrev Instr.opcode (i : Instr) : Opcode := i.toDecoded.opcode

end Sys2Proof
end

