-- ==== Sys2Proof/WellFormed.lean ====
section
/-! DEFINITION. Which instructions a word can carry: the rotate field has 4 bits (30_encoding.md R44) and the
immediate shift amount 5 bits (R45). Every other field has its width in its type. Rd = 15 with S = 1 and the reserved
condition are encodable; executing them is what fails (R53, R54). -/

namespace Sys2Proof

/-- The operand-2 fields fit their bits: rotate in 0..15 (R50), the immediate amount in 0..31 (R69). Other
operands are in no word (log 10). -/
def Operand2.wellFormed : Operand2 → Bool
  | .imm rotate _ => decide (rotate < 16)
  | .regImm _ _ amount => decide (amount < 32)
  | .regReg _ _ _ => true

/-- An instruction some word of the class encodes. -/
abbrev Instr.WellFormed (i : Instr) : Prop := i.op2.wellFormed = true

end Sys2Proof
end

