-- ==== Sys2Proof/Decode.lean ====
section
/-! DEFINITION. From words to instructions and back (30_encoding.md). `decodeFields` is the block's own `decode`, total
over all words (R41, R47); `decodeWord` is the model's decoder, which rejects by name the words outside `IsDPClass`
(R55, D14, D15, D21; log 5); `encode` is R52, written from the same field tables. The numbers of the conditions (D2) and
of the shift types (D6), the polarity of bit 25 (D5) and the places of the operand-2 sub-fields (D4) are the spec's own
decisions (PRESUMED, log 7). -/

namespace Sys2Proof

/-- The condition of a 4-bit code: the position in the list of R49, and 15 the reserved encoding (D2). -/
def condOfCode (c : BitVec 4) : Cond :=
  match c.toNat with
  | 0 => .eq | 1 => .ne | 2 => .cs | 3 => .cc | 4 => .mi | 5 => .pl | 6 => .vs | 7 => .vc
  | 8 => .hi | 9 => .ls | 10 => .ge | 11 => .lt | 12 => .gt | 13 => .le | 14 => .al | _ => .reserved

/-- The 4-bit code of a condition (R49). -/
def condCode : Cond → BitVec 4
  | .eq => 0 | .ne => 1 | .cs => 2 | .cc => 3 | .mi => 4 | .pl => 5 | .vs => 6 | .vc => 7
  | .hi => 8 | .ls => 9 | .ge => 10 | .lt => 11 | .gt => 12 | .le => 13 | .al => 14 | .reserved => 15

/-- The operation of a 4-bit opcode: the position in the list of R48. All 16 values are defined. -/
def opcodeOfCode (c : BitVec 4) : Opcode :=
  match c.toNat with
  | 0 => .and | 1 => .eor | 2 => .sub | 3 => .rsb | 4 => .add | 5 => .adc | 6 => .sbc | 7 => .rsc
  | 8 => .tst | 9 => .teq | 10 => .cmp | 11 => .cmn | 12 => .orr | 13 => .mov | 14 => .bic | _ => .mvn

/-- The 4-bit opcode of an operation (R48). -/
def opcodeCode : Opcode → BitVec 4
  | .and => 0 | .eor => 1 | .sub => 2 | .rsb => 3 | .add => 4 | .adc => 5 | .sbc => 6 | .rsc => 7
  | .tst => 8 | .teq => 9 | .cmp => 10 | .cmn => 11 | .orr => 12 | .mov => 13 | .bic => 14 | .mvn => 15

/-- The shift type of its 2-bit field (R46, D6). -/
def shiftOfCode (c : BitVec 2) : ShiftType :=
  match c.toNat with
  | 0 => .lsl | 1 => .lsr | 2 => .asr | _ => .ror

/-- The 2-bit field of a shift type (R46). -/
def shiftCode : ShiftType → BitVec 2
  | .lsl => 0 | .lsr => 1 | .asr => 2 | .ror => 3

/-- The register a 4-bit field names; every index is legal (10_state.md R17). -/
def regOfBits (b : BitVec 4) : RegId := ⟨b.toNat, b.isLt⟩

/-- The 4-bit field of a register. -/
def regBits (r : RegId) : BitVec 4 := BitVec.ofNat 4 r.val

/-- `v[hi:lo]` with its width: `len` bits from bit `lo` up (00_scope.md R9). -/
def field (w : Word) (lo len : Nat) : BitVec len := w.extractLsb' lo len

/-- The operand-2 descriptor of a word: I (bit 25) selects the immediate form, else bit 4 the register sub-form
(R43, R44, R45, R47). Bit 7 is not read when bit 4 is 1 (D21). -/
def operand2OfWord (w : Word) : Operand2 :=
  if w.getLsbD 25 then .imm (field w 8 4).toNat (field w 0 8)
  else if w.getLsbD 4 then .regReg (regOfBits (field w 0 4)) (shiftOfCode (field w 5 2)) (regOfBits (field w 8 4))
  else .regImm (regOfBits (field w 0 4)) (shiftOfCode (field w 5 2)) (field w 7 5).toNat

/-- The block's `decode(word)`: pure, total over all words, reading neither the state nor bits 27:26 (R41, R47). -/
def decodeFields (w : Word) : DecodedInstruction where
  cond     := condOfCode (field w 28 4)
  opcode   := opcodeOfCode (field w 21 4)
  setFlags := w.getLsbD 20
  rn       := regOfBits (field w 16 4)
  rd       := regOfBits (field w 12 4)
  op2      := operand2OfWord w

/-- The instruction of decoded fields. The S bit of a compare is dropped: inside the class it is 1. -/
def instrOfDecoded (d : DecodedInstruction) : Instr :=
  match d.opcode with
  | .and => .and d.cond d.setFlags d.rn d.rd d.op2
  | .eor => .eor d.cond d.setFlags d.rn d.rd d.op2
  | .sub => .sub d.cond d.setFlags d.rn d.rd d.op2
  | .rsb => .rsb d.cond d.setFlags d.rn d.rd d.op2
  | .add => .add d.cond d.setFlags d.rn d.rd d.op2
  | .adc => .adc d.cond d.setFlags d.rn d.rd d.op2
  | .sbc => .sbc d.cond d.setFlags d.rn d.rd d.op2
  | .rsc => .rsc d.cond d.setFlags d.rn d.rd d.op2
  | .tst => .tst d.cond d.rn d.rd d.op2
  | .teq => .teq d.cond d.rn d.rd d.op2
  | .cmp => .cmp d.cond d.rn d.rd d.op2
  | .cmn => .cmn d.cond d.rn d.rd d.op2
  | .orr => .orr d.cond d.setFlags d.rn d.rd d.op2
  | .mov => .mov d.cond d.setFlags d.rn d.rd d.op2
  | .bic => .bic d.cond d.setFlags d.rn d.rd d.op2
  | .mvn => .mvn d.cond d.setFlags d.rn d.rd d.op2

/-- `IsDPClass(w)` as R55 writes it. -/
def isDPClass (w : Word) : Bool :=
  field w 26 2 == 0
    && !(!w.getLsbD 25 && w.getLsbD 7 && w.getLsbD 4)
    && !(field w 23 2 == 2 && !w.getLsbD 20)

/-- Why the model's decoder rejects bytes. -/
inductive DecodeError where
  /-- Fewer than the four bytes of a word (R41). -/
  | truncated
  /-- Bits 27:26 are not 00: another instruction class (R42, R55). -/
  | otherClass
  /-- I = 0, bit 7 = 1, bit 4 = 1: ARM's multiply, swap and extra transfers (R55, D21). -/
  | multiplyTransferSpace
  /-- Opcode 10xx with S = 0: ARM's status transfers and BX (R55, D15). -/
  | statusTransferSpace
deriving DecidableEq, Repr

/-- Which part of `IsDPClass` a word fails, if any (R55). -/
def classError (w : Word) : Option DecodeError :=
  if field w 26 2 ≠ 0 then some .otherClass
  else if !w.getLsbD 25 && w.getLsbD 7 && w.getLsbD 4 then some .multiplyTransferSpace
  else if field w 23 2 == 2 && !w.getLsbD 20 then some .statusTransferSpace
  else none

/-- The model's decoder: the data-processing reading of a word of the class, and a named rejection of any other word
(R55, R128). -/
def decodeWord (w : Word) : Except DecodeError Instr :=
  match classError w with
  | some e => .error e
  | none => .ok (instrOfDecoded (decodeFields w))

/-- The decoder on bytes: the host assembles a word little-endian, the byte at the lowest address supplying bits 7:0
(20_memory.md R34, D19; PRESUMED, log 8). It answers the instruction and the bytes after it. -/
def decode : List Byte → Except DecodeError (Instr × List Byte)
  | b0 :: b1 :: b2 :: b3 :: rest =>
    match decodeWord (b3 ++ b2 ++ b1 ++ b0) with
    | .ok i => .ok (i, rest)
    | .error e => .error e
  | _ => .error .truncated

/-- The four bytes of a word, lowest address first (R34, D19). -/
def wordBytes (w : Word) : List Byte := [field w 0 8, field w 8 8, field w 16 8, field w 24 8]

/-- The host's reading of the opcode table: bits `w` of a row of `nbits` bits, every bit above them 0. -/
def tableWord (nbits w : Nat) : Word := BitVec.ofNat 32 (w % 2 ^ nbits)

/-- The instruction the decoder reads from an opcode-table row's bits, laid out as bytes. -/
def decodeTableWord (nbits w : Nat) : Option Instr :=
  match decode (wordBytes (tableWord nbits w)) with
  | .ok (i, _) => some i
  | .error _ => none

/-- Bits 11:0 of the word of an operand 2 (R52). -/
def operand2Bits : Operand2 → BitVec 12
  | .imm rotate imm8 => BitVec.ofNat 4 rotate ++ imm8
  | .regImm rm shift amount => BitVec.ofNat 5 amount ++ shiftCode shift ++ 0#1 ++ regBits rm
  | .regReg rm shift rs => regBits rs ++ 0#1 ++ shiftCode shift ++ 1#1 ++ regBits rm

/-- Bit 25, the immediate flag (R43, D5). -/
def Operand2.isImm : Operand2 → Bool
  | .imm _ _ => true
  | .regImm _ _ _ => false
  | .regReg _ _ _ => false

/-- The word of decoded fields, bits 27:26 being 00 (R42, R52). -/
def encodeFields (d : DecodedInstruction) : Word :=
  condCode d.cond ++ 0#2 ++ BitVec.ofBool d.op2.isImm ++ opcodeCode d.opcode ++ BitVec.ofBool d.setFlags
    ++ regBits d.rn ++ regBits d.rd ++ operand2Bits d.op2

/-- The word of an instruction (R52). -/
def encode (i : Instr) : Word := encodeFields i.toDecoded

end Sys2Proof
end

