-- ==== Sys2Proof/Config.lean ====
section
/-! DEFINITION. The parameters of the machine: the contents of the registers and of the status word at the start, which
the spec leaves open as INIT_REGS and INIT_STATUS (70_reset_and_hazards.md R130, R131, D18). The two values here are the
model's, DESIGN CHOICE (log 2), unsafe: they are read by `State.reset` only, and no statement rests on them. -/

namespace Sys2Proof

/-- INIT_REGS (R130). DESIGN CHOICE: zeros (log 2). -/
def Config.initRegs : Vector Word 16 := Vector.replicate 16 0

/-- INIT_STATUS (R131). DESIGN CHOICE: zero (log 2). -/
def Config.initStatus : Word := 0

end Sys2Proof
end

