-- ==== Sys2Proof/Machine/State.lean ====
section
/-! DEFINITION. The state of the block, the pair (x, CPSR) of 10_state.md R15, with the block's two interface ports that
a step reads and writes: the calls the host has made and not yet had executed, and the output `wrote_pc`
(00_scope.md R8; log 1). The reasons a step can stop. -/

namespace Sys2Proof.Machine

/-- The flags the status register names (10_state.md R23, R25); Q is reserved and no instruction uses it (R28). -/
inductive Flag where
  | n | z | c | v | q
deriving DecidableEq, Repr

/-- One write the host makes between two steps: "any write" of a register or of the status word (60_exceptions.md R126,
R127), or the status register's own set and clear of one flag (10_state.md R25). -/
inductive HostWrite where
  | reg (r : RegId) (v : Word)
  | status (v : Word)
  | setFlag (f : Flag)
  | clearFlag (f : Flag)
deriving DecidableEq, Repr

/-- One call of the host: the writes it makes since the step before, in order, and then the instruction word it has
executed (R8: "one per call"; R127). -/
structure HostCall where
  writes : List HostWrite
  word   : Word
deriving DecidableEq, Repr

/-- The machine. `regs` and `cpsr` are the architectural state (R15, R16, R22); `wrotePc` is the output of the last step
(42_execute.md R97, D12); `input` holds the host's pending calls, oldest first (R8, log 1). -/
structure State where
  regs    : Vector Word 16
  cpsr    : Word
  wrotePc : Bool
  input   : List HostCall
deriving DecidableEq, Repr

/-- The block's two error kinds, and no other (60_exceptions.md R115). -/
inductive Fault where
  /-- Raised by every instruction whose condition field is the reserved encoding (R116). Safe: the block reports the same
  error and changes nothing; a run stops where the host of the block could go on (log 6). -/
  | illegalCondition
  /-- Raised by every instruction with S = 1 and Rd = 15 whose condition passes (R117). Safe, for the same reason. -/
  | illegalDestination
deriving DecidableEq, Repr

/-- Why a step has no outcome of the block. -/
inductive Refusal where
  /-- Raised by an arm of `exec` whose instruction has no meaning yet; no arm of this model does so. Safe: it stops. -/
  | notModelled (mnemonic : String)
  /-- Raised by `step` on a word with bits 27:26 other than 00, an instruction of another class (30_encoding.md R55).
  Safe: the spec has a model refuse it (R128, D14). -/
  | otherClass
  /-- Raised by `step` on a word with I = 0 and bits 7 and 4 both 1 (R55, D21). Safe, as above. -/
  | multiplyTransferSpace
  /-- Raised by `step` on a word with opcode 10xx and S = 0 (R55, D15). Safe, as above. -/
  | statusTransferSpace
  /-- Raised by `step` when the host has made no call: there is nothing to execute (R7, log 1). Safe: it stops. -/
  | noCall
deriving DecidableEq, Repr

/-- The state a host starts the block in, for the parameters INIT_REGS and INIT_STATUS the spec leaves open
(70_reset_and_hazards.md R130, R131, D18): no step taken, no call pending (log 3, log 4). -/
def State.ofParams (initRegs : Vector Word 16) (initStatus : Word) : State where
  regs    := initRegs
  cpsr    := initStatus
  wrotePc := false
  input   := []

/-- The machine after reset. The spec gives no value for any register; DESIGN CHOICE, unsafe: those of Config (log 2). -/
def State.reset : State := State.ofParams Config.initRegs Config.initStatus

end Sys2Proof.Machine
end

