-- ==== Sys2Proof/Machine/Flags.lean ====
section
/-! DEFINITION. The status register's contract (10_state.md R25), the condition evaluator (40_condition.md R61), the
addition with carry (42_execute.md R88) and the flag generator (R89 to R95). -/

namespace Sys2Proof.Machine

/-- The bit position of a flag; the positions are the spec's own decision (10_state.md R23, D3). -/
def flagPos : Flag → Nat
  | .n => 31
  | .z => 30
  | .c => 29
  | .v => 28
  | .q => 27

/-- `mask(f) = 2^pos(f)` (R25). -/
def flagMask (f : Flag) : Word := 1#32 <<< flagPos f

/-- `set(f)` (R25). -/
def setFlag (w : Word) (f : Flag) : Word := w ||| flagMask f

/-- `clear(f)` (R25). -/
def clearFlag (w : Word) (f : Flag) : Word := w &&& ~~~ flagMask f

/-- `is_set(f)` (R25). -/
def isSet (w : Word) (f : Flag) : Bool := w.getLsbD (flagPos f)

/-- `write(f, b)` (R25). -/
def writeFlag (w : Word) (f : Flag) (b : Bool) : Word := if b then setFlag w f else clearFlag w f

/-- `CPSR.f` read as a bit (R25). -/
def State.flag (s : State) (f : Flag) : Bool := isSet s.cpsr f

/-- The truth table of R61; `none` is the reserved encoding, which fails for every flag combination (R62). -/
def evaluate (cond : Cond) (n z c v : Bool) : Option Bool :=
  match cond with
  | .eq => some z
  | .ne => some (!z)
  | .cs => some c
  | .cc => some (!c)
  | .mi => some n
  | .pl => some (!n)
  | .vs => some v
  | .vc => some (!v)
  | .hi => some (c && !z)
  | .ls => some (!c || z)
  | .ge => some (n == v)
  | .lt => some (n != v)
  | .gt => some (!z && (n == v))
  | .le => some (z || (n != v))
  | .al => some true
  | .reserved => none

/-- The condition evaluated against the flags of the state before the step (R60, 10_state.md R26). -/
def State.evaluate (s : State) (cond : Cond) : Option Bool :=
  Machine.evaluate cond (s.flag .n) (s.flag .z) (s.flag .c) (s.flag .v)

/-- The result, carry and overflow of an addition with carry (42_execute.md R88). -/
structure Sum where
  result   : Word
  carry    : Bool
  overflow : Bool
deriving DecidableEq, Repr

/-- `AddWithCarry(a, b, cin)` (R88): the exact sum, reduced modulo 2^32; carry when it reaches 2^32; overflow when the
operands share a sign and the result's differs. -/
def addWithCarry (a b : Word) (cin : Bool) : Sum :=
  let sum := a.toNat + b.toNat + cin.toNat
  let result := BitVec.ofNat 32 sum
  { result   := result
    carry    := decide (2 ^ 32 ≤ sum)
    overflow := a.getLsbD 31 == b.getLsbD 31 && result.getLsbD 31 != a.getLsbD 31 }

/-- N and Z from the 32-bit result, whether or not it is written to a register (R90). -/
def writeNZ (w : Word) (res : Word) : Word := writeFlag (writeFlag w .n (res.getLsbD 31)) .z (res == 0)

/-- The status word after a logical operation: with S = 1, N and Z of the result and C the shifter carry, V unchanged
(R89, R90, R91). -/
def logicalStatus (setFlags : Bool) (res : Word) (shifterCarry : Bool) (w : Word) : Word :=
  if setFlags then writeFlag (writeNZ w res) .c shifterCarry else w

/-- The status word after an additive or subtractive operation: with S = 1, all four flags (R89, R90, R92 to R95). -/
def arithStatus (setFlags : Bool) (sum : Sum) (w : Word) : Word :=
  if setFlags then writeFlag (writeFlag (writeNZ w sum.result) .c sum.carry) .v sum.overflow else w

end Sys2Proof.Machine
end

