-- ==== Sys2Proof/Machine/Registers.lean ====
section
/-! DEFINITION. The one home of every access to the state's fields. -/

namespace Sys2Proof.Machine

/-- `x[r]`: the last value written, no register being hard-wired and R15 being read as stored, with no offset
(10_state.md R16, R17, R20, D11, D25). -/
def State.reg (s : State) (r : RegId) : Word := s.regs[r]

/-- `x[r] <- v`: all 32 bits, R15 included, with no masking (R16, R21, D13). -/
def State.setReg (s : State) (r : RegId) (v : Word) : State := { s with regs := s.regs.set r v }

/-- The status word replaced. -/
def State.setCpsr (s : State) (w : Word) : State := { s with cpsr := w }

/-- The output `wrote_pc` of the step (42_execute.md R97). -/
def State.setWrotePc (s : State) (b : Bool) : State := { s with wrotePc := b }

/-- The pending calls replaced. -/
def State.setInput (s : State) (cs : List HostCall) : State := { s with input := cs }

end Sys2Proof.Machine
end

