-- ==== Sys2Proof/Machine/Operands.lean ====
section
/-! DEFINITION. Operand 2 and the barrel shifter (41_shifter.md): every form, with its carry-out. -/

namespace Sys2Proof.Machine

/-- `LSL(v, n)` (00_scope.md R10). -/
def lsl (v : Word) (n : Nat) : Word := v <<< n

/-- `LSR(v, n)` (R10). -/
def lsr (v : Word) (n : Nat) : Word := v >>> n

/-- `ASR(v, n)` (R10). -/
def asr (v : Word) (n : Nat) : Word := v.sshiftRight n

/-- `ROR(v, n)` (R10). -/
def ror (v : Word) (n : Nat) : Word :=
  if n % 32 = 0 then v else lsr v (n % 32) ||| lsl v (32 - n % 32)

/-- `fill(b)` of R80: every bit a copy of b. -/
def fill (b : Bool) : Word := if b then 0xFFFFFFFF else 0

/-- What the shifter gives: the operand value and the carry-out (R67). -/
structure Shifted where
  value : Word
  carry : Bool
deriving DecidableEq, Repr

/-- The immediate form: imm8 zero-extended and rotated right by twice the rotate field; the carry is unchanged for rotate
0, else bit 31 of the value (R50, R68, D28). -/
def shiftImm8 (rotate : Nat) (imm8 : BitVec 8) (c : Bool) : Shifted :=
  let value := ror (imm8.setWidth 32) (2 * rotate)
  { value := value, carry := if rotate = 0 then c else value.getLsbD 31 }

/-- A shift by an immediate amount n in 0..31. Amount 0 is LSL #0, LSR #32, ASR #32 and RRX (R71 to R74, D7). -/
def shiftByImmediate (shift : ShiftType) (v : Word) (n : Nat) (c : Bool) : Shifted :=
  match shift with
  | .lsl => if n = 0 then ⟨v, c⟩ else ⟨lsl v n, v.getLsbD (32 - n)⟩
  | .lsr => if n = 0 then ⟨0, v.getLsbD 31⟩ else ⟨lsr v n, v.getLsbD (n - 1)⟩
  | .asr => if n = 0 then ⟨fill (v.getLsbD 31), v.getLsbD 31⟩ else ⟨asr v n, v.getLsbD (n - 1)⟩
  | .ror => if n = 0 then ⟨BitVec.ofBool c ++ v.extractLsb' 1 31, v.getLsbD 0⟩ else ⟨ror v n, v.getLsbD (n - 1)⟩

/-- A shift by a register's low byte n in 0..255 (R75 to R79, D8, D9). There is no RRX here (R79). -/
def shiftByRegister (shift : ShiftType) (v : Word) (n : Nat) (c : Bool) : Shifted :=
  if n = 0 then ⟨v, c⟩
  else match shift with
    | .lsl => if n < 32 then ⟨lsl v n, v.getLsbD (32 - n)⟩ else if n = 32 then ⟨0, v.getLsbD 0⟩ else ⟨0, false⟩
    | .lsr => if n < 32 then ⟨lsr v n, v.getLsbD (n - 1)⟩ else if n = 32 then ⟨0, v.getLsbD 31⟩ else ⟨0, false⟩
    | .asr => if n < 32 then ⟨asr v n, v.getLsbD (n - 1)⟩ else ⟨fill (v.getLsbD 31), v.getLsbD 31⟩
    | .ror => if n % 32 = 0 then ⟨v, v.getLsbD 31⟩ else ⟨ror v (n % 32), v.getLsbD (n % 32 - 1)⟩

/-- The low 8 bits of the shift register; bits 31:8 are ignored (R69). -/
def shiftAmount (v : Word) : Nat := (v.extractLsb' 0 8).toNat

/-- `resolve(op2desc, x, C)` against the state before the step (R67, R69, R80). It never fails. -/
def resolve (op2 : Operand2) (s : State) : Shifted :=
  match op2 with
  | .imm rotate imm8 => shiftImm8 rotate imm8 (s.flag .c)
  | .regImm rm shift n => shiftByImmediate shift (s.reg rm) n (s.flag .c)
  | .regReg rm shift rs => shiftByRegister shift (s.reg rm) (shiftAmount (s.reg rs)) (s.flag .c)

end Sys2Proof.Machine
end

