-- ==== Sys2Proof/Machine/Ops.lean ====
section
/-! DEFINITION. The shared operations: the host's writes and calls, raising an error, the gate every instruction passes
(42_execute.md R82), and the four shapes an instruction's effect has. -/

namespace Sys2Proof.Machine

/-- What a step answers. -/
abbrev Result := Host.Outcome State Fault Refusal

/-- One write of the host (60_exceptions.md R126; 10_state.md R25). -/
def applyHostWrite (s : State) : HostWrite → State
  | .reg r v => s.setReg r v
  | .status v => s.setCpsr v
  | .setFlag f => s.setCpsr (setFlag s.cpsr f)
  | .clearFlag f => s.setCpsr (clearFlag s.cpsr f)

/-- The host's writes between two steps, in their order (R126). -/
def applyHostWrites (ws : List HostWrite) (s : State) : State := ws.foldl applyHostWrite s

/-- The next call: the word, and the state its execution starts from, the host's writes made and the call consumed. -/
def takeCall (s : State) : Option (Word × State) :=
  match s.input with
  | [] => none
  | call :: rest => some (call.word, (applyHostWrites call.writes s).setInput rest)

/-- The refusal of a word outside the class (30_encoding.md R55, R128). A whole word is never truncated. -/
def refusalOf : DecodeError → Refusal
  | .truncated => .noCall
  | .otherClass => .otherClass
  | .multiplyTransferSpace => .multiplyTransferSpace
  | .statusTransferSpace => .statusTransferSpace

/-- `raise E`: the block's only exceptional outcome. There is no trap entry, so nothing is saved, no mode changes and
control goes nowhere (60_exceptions.md R118, R120, D17); a model reports a fault naming the error kind (R128). -/
def raise (e : Fault) : Result := .fault e

/-- The checks of R82 in the order of R119: the reserved condition, a failed condition (nothing changes and `wrote_pc` is
0), S = 1 with Rd = 15 (R117, D16), and otherwise the instruction's own next state `t`. -/
def gate (cond : Cond) (setFlags : Bool) (rd : RegId) (s t : State) : Result :=
  match s.evaluate cond with
  | none => raise .illegalCondition
  | some false => .next (s.setWrotePc false)
  | some true => if setFlags && rd == pcReg then raise .illegalDestination else .next t

/-- Result and status word committed together; `wrote_pc` tells whether Rd is R15 (R85, R96, R97, R98). -/
def commitRd (rd : RegId) (res status : Word) (s : State) : State :=
  ((s.setReg rd res).setCpsr status).setWrotePc (rd == pcReg)

/-- The status word committed and no register written (R96). -/
def commitStatus (status : Word) (s : State) : State := (s.setCpsr status).setWrotePc false

/-- A logical operation that writes Rd; `f` gives the result from operand 1 and operand 2 (43_logical.md). -/
def logicalToRd (f : Word → Word → Word) (cond : Cond) (setFlags : Bool) (rn rd : RegId) (op2 : Operand2)
    (s : State) : Result :=
  let o := resolve op2 s
  let res := f (s.reg rn) o.value
  gate cond setFlags rd s (commitRd rd res (logicalStatus setFlags res o.carry s.cpsr) s)

/-- A logical test: S = 1 and no register written (45_compare.md). -/
def logicalTest (f : Word → Word → Word) (cond : Cond) (rn rd : RegId) (op2 : Operand2) (s : State) : Result :=
  let o := resolve op2 s
  gate cond true rd s (commitStatus (logicalStatus true (f (s.reg rn) o.value) o.carry s.cpsr) s)

/-- An arithmetic operation that writes Rd; `f` gives the sum from operand 1, operand 2 and C (44_arithmetic.md). -/
def arithToRd (f : Word → Word → Bool → Sum) (cond : Cond) (setFlags : Bool) (rn rd : RegId) (op2 : Operand2)
    (s : State) : Result :=
  let sum := f (s.reg rn) (resolve op2 s).value (s.flag .c)
  gate cond setFlags rd s (commitRd rd sum.result (arithStatus setFlags sum s.cpsr) s)

/-- An arithmetic comparison: S = 1 and no register written (45_compare.md). -/
def arithTest (f : Word → Word → Bool → Sum) (cond : Cond) (rn rd : RegId) (op2 : Operand2) (s : State) : Result :=
  let sum := f (s.reg rn) (resolve op2 s).value (s.flag .c)
  gate cond true rd s (commitStatus (arithStatus true sum s.cpsr) s)

end Sys2Proof.Machine
end

