-- ==== Sys2Proof/Machine/Arithmetic.lean ====
section
/-! DEFINITION. The six arithmetic operations that write Rd (44_arithmetic.md R105 to R110), each with the operands of
AddWithCarry that 42_execute.md R88 gives it. -/

namespace Sys2Proof.Machine

/-- SUB (R105). -/
def execSub (cond : Cond) (setFlags : Bool) (rn rd : RegId) (op2 : Operand2) (s : State) : Result :=
  arithToRd (fun op1 o _ => addWithCarry op1 (~~~o) true) cond setFlags rn rd op2 s

/-- RSB (R106): the minuend is operand 2. -/
def execRsb (cond : Cond) (setFlags : Bool) (rn rd : RegId) (op2 : Operand2) (s : State) : Result :=
  arithToRd (fun op1 o _ => addWithCarry o (~~~op1) true) cond setFlags rn rd op2 s

/-- ADD (R107). -/
def execAdd (cond : Cond) (setFlags : Bool) (rn rd : RegId) (op2 : Operand2) (s : State) : Result :=
  arithToRd (fun op1 o _ => addWithCarry op1 o false) cond setFlags rn rd op2 s

/-- ADC (R108). -/
def execAdc (cond : Cond) (setFlags : Bool) (rn rd : RegId) (op2 : Operand2) (s : State) : Result :=
  arithToRd (fun op1 o c => addWithCarry op1 o c) cond setFlags rn rd op2 s

/-- SBC (R109). -/
def execSbc (cond : Cond) (setFlags : Bool) (rn rd : RegId) (op2 : Operand2) (s : State) : Result :=
  arithToRd (fun op1 o c => addWithCarry op1 (~~~o) c) cond setFlags rn rd op2 s

/-- RSC (R110): the minuend is operand 2. -/
def execRsc (cond : Cond) (setFlags : Bool) (rn rd : RegId) (op2 : Operand2) (s : State) : Result :=
  arithToRd (fun op1 o c => addWithCarry o (~~~op1) c) cond setFlags rn rd op2 s

end Sys2Proof.Machine
end

