-- ==== Sys2Proof/Machine/Compare.lean ====
section
/-! DEFINITION. The four operations that only set flags (45_compare.md R111 to R114). Their words have S = 1; Rd is not
used, but Rd = 15 is IllegalDestination (R117, D16). -/

namespace Sys2Proof.Machine

/-- TST (R111). -/
def execTst (cond : Cond) (rn rd : RegId) (op2 : Operand2) (s : State) : Result :=
  logicalTest (fun op1 o => op1 &&& o) cond rn rd op2 s

/-- TEQ (R112). -/
def execTeq (cond : Cond) (rn rd : RegId) (op2 : Operand2) (s : State) : Result :=
  logicalTest (fun op1 o => op1 ^^^ o) cond rn rd op2 s

/-- CMP (R113). -/
def execCmp (cond : Cond) (rn rd : RegId) (op2 : Operand2) (s : State) : Result :=
  arithTest (fun op1 o _ => addWithCarry op1 (~~~o) true) cond rn rd op2 s

/-- CMN (R114). -/
def execCmn (cond : Cond) (rn rd : RegId) (op2 : Operand2) (s : State) : Result :=
  arithTest (fun op1 o _ => addWithCarry op1 o false) cond rn rd op2 s

end Sys2Proof.Machine
end

