-- ==== Sys2Proof/Machine/Logical.lean ====
section
/-! DEFINITION. The six logical operations that write Rd (43_logical.md R99 to R104). -/

namespace Sys2Proof.Machine

/-- AND (R99). -/
def execAnd (cond : Cond) (setFlags : Bool) (rn rd : RegId) (op2 : Operand2) (s : State) : Result :=
  logicalToRd (fun op1 o => op1 &&& o) cond setFlags rn rd op2 s

/-- EOR (R100). -/
def execEor (cond : Cond) (setFlags : Bool) (rn rd : RegId) (op2 : Operand2) (s : State) : Result :=
  logicalToRd (fun op1 o => op1 ^^^ o) cond setFlags rn rd op2 s

/-- ORR (R101). -/
def execOrr (cond : Cond) (setFlags : Bool) (rn rd : RegId) (op2 : Operand2) (s : State) : Result :=
  logicalToRd (fun op1 o => op1 ||| o) cond setFlags rn rd op2 s

/-- MOV (R102): Rn is not used (R56, D29). -/
def execMov (cond : Cond) (setFlags : Bool) (rn rd : RegId) (op2 : Operand2) (s : State) : Result :=
  logicalToRd (fun _ o => o) cond setFlags rn rd op2 s

/-- BIC (R103). -/
def execBic (cond : Cond) (setFlags : Bool) (rn rd : RegId) (op2 : Operand2) (s : State) : Result :=
  logicalToRd (fun op1 o => op1 &&& ~~~o) cond setFlags rn rd op2 s

/-- MVN (R104): Rn is not used; the carry is that of operand 2's resolution, not of the inversion. -/
def execMvn (cond : Cond) (setFlags : Bool) (rn rd : RegId) (op2 : Operand2) (s : State) : Result :=
  logicalToRd (fun _ o => ~~~o) cond setFlags rn rd op2 s

end Sys2Proof.Machine
end

