-- ==== Sys2Proof/Machine/Dispatch.lean ====
section
/-! DEFINITION. One arm per row of the opcode table. -/

namespace Sys2Proof.Machine

def exec (i : Instr) (s : State) : Host.Outcome State Fault Refusal :=
  match i with
  | .and cond setFlags rn rd op2 => Sys2Proof.Machine.execAnd cond setFlags rn rd op2 s
  | .eor cond setFlags rn rd op2 => Sys2Proof.Machine.execEor cond setFlags rn rd op2 s
  | .sub cond setFlags rn rd op2 => Sys2Proof.Machine.execSub cond setFlags rn rd op2 s
  | .rsb cond setFlags rn rd op2 => Sys2Proof.Machine.execRsb cond setFlags rn rd op2 s
  | .add cond setFlags rn rd op2 => Sys2Proof.Machine.execAdd cond setFlags rn rd op2 s
  | .adc cond setFlags rn rd op2 => Sys2Proof.Machine.execAdc cond setFlags rn rd op2 s
  | .sbc cond setFlags rn rd op2 => Sys2Proof.Machine.execSbc cond setFlags rn rd op2 s
  | .rsc cond setFlags rn rd op2 => Sys2Proof.Machine.execRsc cond setFlags rn rd op2 s
  | .tst cond rn rd op2 => Sys2Proof.Machine.execTst cond rn rd op2 s
  | .teq cond rn rd op2 => Sys2Proof.Machine.execTeq cond rn rd op2 s
  | .cmp cond rn rd op2 => Sys2Proof.Machine.execCmp cond rn rd op2 s
  | .cmn cond rn rd op2 => Sys2Proof.Machine.execCmn cond rn rd op2 s
  | .orr cond setFlags rn rd op2 => Sys2Proof.Machine.execOrr cond setFlags rn rd op2 s
  | .mov cond setFlags rn rd op2 => Sys2Proof.Machine.execMov cond setFlags rn rd op2 s
  | .bic cond setFlags rn rd op2 => Sys2Proof.Machine.execBic cond setFlags rn rd op2 s
  | .mvn cond setFlags rn rd op2 => Sys2Proof.Machine.execMvn cond setFlags rn rd op2 s

end Sys2Proof.Machine
end

