-- ==== Sys2Proof/Machine/Step.lean ====
section
/-! DEFINITION. One step: the next call of the host is taken, its writes made, its word decoded and executed
(00_scope.md R7, R8; 60_exceptions.md R126, R128). -/

namespace Sys2Proof.Machine

/-- One call of `execute(decode(word), state)`. A word outside the class is refused by name, and so is a step with no
call pending (R128; log 1, log 5). -/
def step (s : State) : Host.Outcome State Fault Refusal :=
  match takeCall s with
  | none => .refused .noCall
  | some (w, t) =>
    match decodeWord w with
    | .error e => .refused (refusalOf e)
    | .ok i => exec i t

/-- The host makes a call with this word and no write before it, as the next call (log 4). -/
def State.withFetchWord (s : State) (nbits w : Nat) : State := s.setInput (⟨[], tableWord nbits w⟩ :: s.input)

end Sys2Proof.Machine
end

