-- ==== Sys2Proof/Machine/Block.lean ====
section
/-! DEFINITION. The block as its own rules for the whole class give it: `execute(decoded, state)` of 42_execute.md R82,
with the operation table of R87 and the flag rules of R92 to R95 in their own words (borrow, signs), where the
instructions' meanings use AddWithCarry (R88). It is total, it runs words outside `IsDPClass` too (30_encoding.md R55),
and it answers the state after an error (60_exceptions.md R118), which a fault of `step` cannot carry. -/

namespace Sys2Proof.Machine

/-- The status `execute` returns (00_scope.md R8). -/
inductive Status where
  | ok | illegalCondition | illegalDestination
deriving DecidableEq, Repr

/-- The three groups of operations of the flag rules (42_execute.md R87). -/
inductive OpClass where
  | logical | additive | subtractive
deriving DecidableEq, Repr

/-- The class column of R87. -/
def opClass : Opcode → OpClass
  | .and | .eor | .tst | .teq | .orr | .mov | .bic | .mvn => .logical
  | .add | .adc | .cmn => .additive
  | .sub | .rsb | .sbc | .rsc | .cmp => .subtractive

/-- The "writes Rd" column of R87 (R96). -/
def writesRd : Opcode → Bool
  | .tst | .teq | .cmp | .cmn => false
  | .and | .eor | .sub | .rsb | .add | .adc | .sbc | .rsc | .orr | .mov | .bic | .mvn => true

/-- A carry as a word, for the C and 1 − C of R87. -/
def bitWord (b : Bool) : Word := if b then 1 else 0

/-- The result column of R87, modulo 2^32 (R86). -/
def aluResult (op : Opcode) (op1 op2 : Word) (c : Bool) : Word :=
  match op with
  | .and => op1 &&& op2
  | .eor => op1 ^^^ op2
  | .sub => op1 - op2
  | .rsb => op2 - op1
  | .add => op1 + op2
  | .adc => op1 + op2 + bitWord c
  | .sbc => op1 - op2 - bitWord (!c)
  | .rsc => op2 - op1 - bitWord (!c)
  | .tst => op1 &&& op2
  | .teq => op1 ^^^ op2
  | .cmp => op1 - op2
  | .cmn => op1 + op2
  | .orr => op1 ||| op2
  | .mov => op2
  | .bic => op1 &&& ~~~op2
  | .mvn => ~~~op2

/-- Unsigned addition with a carry-in overflowed 32 bits (R92). -/
def carriesOut (a b : Word) (cin : Bool) : Bool := decide (2 ^ 32 ≤ a.toNat + b.toNat + cin.toNat)

/-- No borrow occurred: minuend m, subtrahend t, and a borrow-in (R94, C4). -/
def noBorrow (m t : Word) (borrowIn : Bool) : Bool := decide (t.toNat + borrowIn.toNat ≤ m.toNat)

/-- Both operands share a sign and the result's sign differs (R93). -/
def addOverflows (a b res : Word) : Bool := a.getLsbD 31 == b.getLsbD 31 && res.getLsbD 31 != a.getLsbD 31

/-- The operands differ in sign and the result's sign matches the subtrahend's (R95). -/
def subOverflows (m t res : Word) : Bool := m.getLsbD 31 != t.getLsbD 31 && res.getLsbD 31 == t.getLsbD 31

/-- C after an operation with S = 1: the shifter carry (R91), the carry (R92) or no borrow (R94). -/
def aluCarry (op : Opcode) (op1 op2 : Word) (c shifterCarry : Bool) : Bool :=
  match op with
  | .and | .eor | .tst | .teq | .orr | .mov | .bic | .mvn => shifterCarry
  | .add | .cmn => carriesOut op1 op2 false
  | .adc => carriesOut op1 op2 c
  | .sub | .cmp => noBorrow op1 op2 false
  | .rsb => noBorrow op2 op1 false
  | .sbc => noBorrow op1 op2 (!c)
  | .rsc => noBorrow op2 op1 (!c)

/-- V after an operation with S = 1: unchanged (R91), or signed overflow (R93, R95). -/
def aluOverflow (op : Opcode) (op1 op2 res : Word) (v : Bool) : Bool :=
  match op with
  | .and | .eor | .tst | .teq | .orr | .mov | .bic | .mvn => v
  | .add | .adc | .cmn => addOverflows op1 op2 res
  | .sub | .sbc | .cmp => subOverflows op1 op2 res
  | .rsb | .rsc => subOverflows op2 op1 res

/-- Step 3 of R82: the status word, written with S = 1 only, one flag at a time; the logical class writes no V (R89). -/
def blockStatus (d : DecodedInstruction) (op1 op2 res : Word) (shifterCarry : Bool) (s : State) : Word :=
  if d.setFlags then
    let w := writeFlag (writeNZ s.cpsr res) .c (aluCarry d.opcode op1 op2 (s.flag .c) shifterCarry)
    match opClass d.opcode with
    | .logical => w
    | .additive => writeFlag w .v (aluOverflow d.opcode op1 op2 res (s.flag .v))
    | .subtractive => writeFlag w .v (aluOverflow d.opcode op1 op2 res (s.flag .v))
  else s.cpsr

/-- The effect of a word that passed the checks: steps 2 to 4 of R82. -/
def blockEffect (d : DecodedInstruction) (s : State) : State :=
  let o := resolve d.op2 s
  let op1 := s.reg d.rn
  let res := aluResult d.opcode op1 o.value (s.flag .c)
  let t := s.setCpsr (blockStatus d op1 o.value res o.carry s)
  (if writesRd d.opcode then t.setReg d.rd res else t).setWrotePc (writesRd d.opcode && d.rd == pcReg)

/-- `execute(d, (x, CPSR))` of R82, with the state unchanged and `wrote_pc` 0 on an error (R118). -/
def blockExecute (d : DecodedInstruction) (s : State) : Status × State :=
  match s.evaluate d.cond with
  | none => (.illegalCondition, s.setWrotePc false)
  | some false => (.ok, s.setWrotePc false)
  | some true =>
    if d.setFlags && d.rd == pcReg then (.illegalDestination, s.setWrotePc false)
    else (.ok, blockEffect d s)

/-- One call on the block itself, whatever the word; after an error a host that skips goes on from the answered state
(R121). `none` when no call is pending. -/
def blockStep (s : State) : Option (Status × State) :=
  (takeCall s).map (fun call => blockExecute (decodeFields call.1) call.2)

end Sys2Proof.Machine
end

