-- ==== Sys2Proof/Machine/ReferenceHost.lean ====
section
/-! DEFINITION. The reference host H0 of 95_test_vectors.md section 3.1: a fetch loop around the block, with ARM's
conventions for the PC (D11, D12). It is the host's side of the interface and no part of `step`. -/

namespace Sys2Proof.Machine

/-- H0 with its program: the words from address `base` on, the exit address, the fetch address and the block. -/
structure H0 where
  base    : Word
  program : List Word
  exit    : Word
  pc      : Word
  block   : State
deriving DecidableEq, Repr

/-- Where H0 stands after a round of its loop. -/
inductive H0Outcome where
  /-- The loop goes on. -/
  | running (h : H0)
  /-- `pc` is the exit address. -/
  | finished (s : State)
  /-- The step returned an error; the state is the one before the word. -/
  | stopped (status : Status) (s : State)
  /-- No word of the program lies at `pc`; the section runs no such program. DESIGN CHOICE, safe (log 9). -/
  | offProgram
deriving DecidableEq, Repr

/-- The word at the fetch address, if the program has one there; H0 runs word-aligned programs (D13). -/
def h0Fetch (h : H0) : Option Word :=
  let offset := (h.pc - h.base).toNat
  if offset % 4 = 0 then h.program[offset / 4]? else none

/-- The next fetch address: x[15] when the step wrote it, else the next word's address (D12). -/
def h0Next (pc : Word) (t : State) : Word := if t.wrotePc then t.reg pcReg else pc + 4

/-- One round of H0's loop: place pc + 8 in R15 (D11), execute the word at pc, advance. -/
def h0Step (h : H0) : H0Outcome :=
  if h.pc = h.exit then .finished h.block
  else match h0Fetch h with
    | none => .offProgram
    | some w =>
      match blockStep (h.block.setInput [⟨[.reg pcReg (h.pc + 8)], w⟩]) with
      | none => .offProgram
      | some (.ok, t) => .running { h with pc := h0Next h.pc t, block := t }
      | some (status, t) => .stopped status t

/-- At most `fuel` rounds. -/
def h0Run : Nat → H0 → H0Outcome
  | 0, h => .running h
  | fuel + 1, h =>
    match h0Step h with
    | .running h' => h0Run fuel h'
    | .finished s => .finished s
    | .stopped status s => .stopped status s
    | .offProgram => .offProgram

end Sys2Proof.Machine
end

