-- ==== Sys2Proof/Safety.lean ====
section
/-! DEFINITION. The terms claims are stated in: what an instruction changes and what it leaves alone, which words the
host may send, and the invariant of a run. -/

namespace Sys2Proof.Machine

/-- The condition holds in the state (42_execute.md R82, step 1). -/
abbrev Passes (cond : Cond) (s : State) : Prop := s.evaluate cond = some true

/-- The condition does not hold in the state, and is not the reserved one. -/
abbrev FailsCond (cond : Cond) (s : State) : Prop := s.evaluate cond = some false

/-- S = 1 with Rd = 15, the form IllegalDestination rejects (60_exceptions.md R117). -/
abbrev PcWithS (setFlags : Bool) (rd : RegId) : Prop := setFlags = true ∧ rd = pcReg

/-- Bit k of the status word is the place of one of the four flags an instruction may write. -/
def isNZCVBit (k : Nat) : Prop := k = flagPos .n ∨ k = flagPos .z ∨ k = flagPos .c ∨ k = flagPos .v

/-- Every bit of the status word outside N, Z, C and V is the same in both states (10_state.md R24). -/
def SameReservedBits (s t : State) : Prop := ∀ k, k < 32 → ¬ isNZCVBit k → t.cpsr.getLsbD k = s.cpsr.getLsbD k

/-- The four flags of a state. -/
def FlagsAre (t : State) (n z c v : Bool) : Prop :=
  t.flag .n = n ∧ t.flag .z = z ∧ t.flag .c = c ∧ t.flag .v = v

/-- The flags after an instruction with the given S bit: the four values with S = 1, the old status word whole with
S = 0; every other status bit as before (42_execute.md R89). -/
def StatusAfter (setFlags : Bool) (s t : State) (n z c v : Bool) : Prop :=
  SameReservedBits s t ∧ (setFlags = true → FlagsAre t n z c v) ∧ (setFlags = false → t.cpsr = s.cpsr)

/-- Rd holds the result and every other register is unchanged (R96). -/
def WritesOnly (rd : RegId) (res : Word) (s t : State) : Prop :=
  t.reg rd = res ∧ ∀ r, r ≠ rd → t.reg r = s.reg r

/-- No register is written (R96). -/
def WritesNothing (s t : State) : Prop := ∀ r, t.reg r = s.reg r

/-- All 16 registers and all 32 bits of the status word are the same, and `wrote_pc` is 0 (40_condition.md R65;
60_exceptions.md R118). -/
def Unchanged (s t : State) : Prop := WritesNothing s t ∧ t.cpsr = s.cpsr ∧ t.wrotePc = false

/-- An instruction's word has class 00, the given opcode, and its S, Rn and Rd in their places (30_encoding.md R42). -/
def HasOpcodeBits (i : Instr) (code : BitVec 4) : Prop :=
  (encode i).extractLsb' 21 4 = code ∧ (encode i).extractLsb' 26 2 = 0#2 ∧ (encode i).getLsbD 20 = i.setFlags ∧
    ((encode i).extractLsb' 16 4).toNat = i.rn.val ∧ ((encode i).extractLsb' 12 4).toNat = i.rd.val

/-- The registers whose value operand 2 reads (41_shifter.md R69). -/
def Operand2.reads : Operand2 → List RegId
  | .imm _ _ => []
  | .regImm rm _ _ => [rm]
  | .regReg rm _ rs => [rm, rs]

/-- The registers an instruction reads: operand 2's, and Rn except for MOV and MVN (42_execute.md R83). -/
def reads (i : Instr) : List RegId :=
  match i.opcode with
  | .mov | .mvn => Operand2.reads i.op2
  | _ => i.rn :: Operand2.reads i.op2

/-- A host write that leaves every bit of the status word outside N, Z, C and V alone. -/
def HostWrite.keepsReserved : HostWrite → Bool
  | .reg _ _ => true
  | .status _ => false
  | .setFlag f => decide (f ≠ .q)
  | .clearFlag f => decide (f ≠ .q)

/-- The host meets its duty of R127 in this call: the word is of the class (D14). -/
def HostCall.wordInClass (c : HostCall) : Bool := isDPClass c.word

/-- The invariant of a run whose host sends only words of the class and leaves the reserved status bits alone: those bits
are the given 28-bit value for ever (10_state.md R24), and the calls still pending keep to it. -/
def RunInvariant (reserved : BitVec 28) (s : State) : Prop :=
  s.cpsr.extractLsb' 0 28 = reserved ∧
    ∀ c ∈ s.input, c.wordInClass = true ∧ ∀ w ∈ c.writes, HostWrite.keepsReserved w = true

/-- At most `k` steps, stopping at the first fault or refusal. -/
def runSteps : Nat → State → Host.Outcome State Fault Refusal
  | 0, s => .next s
  | k + 1, s =>
    match step s with
    | .next t => runSteps k t
    | .fault e => .fault e
    | .refused r => .refused r

/-- The state a call's execution starts from: the host's writes made and the call consumed (60_exceptions.md R126). -/
def stateForCall (c : HostCall) (rest : List HostCall) (s : State) : State :=
  (applyHostWrites c.writes s).setInput rest

/-- The outcome a status of the block stands for in the model (60_exceptions.md R128). -/
def outcomeOf : Status × State → Host.Outcome State Fault Refusal
  | (.ok, t) => .next t
  | (.illegalCondition, _) => .fault .illegalCondition
  | (.illegalDestination, _) => .fault .illegalDestination

/-- Two outcomes of the same kind which, when they are next states, agree on every register, on both ports and on every
bit of the status word but C (41_shifter.md R81). -/
def SameButCarry : Host.Outcome State Fault Refusal → Host.Outcome State Fault Refusal → Prop
  | .next t, .next u => WritesNothing t u ∧ t.wrotePc = u.wrotePc ∧ t.input = u.input ∧
      ∀ k, k < 32 → k ≠ flagPos .c → t.cpsr.getLsbD k = u.cpsr.getLsbD k
  | .fault d, .fault e => d = e
  | .refused q, .refused r => q = r
  | _, _ => False

/-- The next state of an outcome, if it is one. -/
def nextState? : Host.Outcome State Fault Refusal → Option State
  | .next t => some t
  | .fault _ => none
  | .refused _ => none

/-- The fault of an outcome, if it is one. -/
def fault? : Host.Outcome State Fault Refusal → Option Fault
  | .next _ => none
  | .fault e => some e
  | .refused _ => none

/-- The refusal of an outcome, if it is one. -/
def refusal? : Host.Outcome State Fault Refusal → Option Refusal
  | .next _ => none
  | .fault _ => none
  | .refused r => some r

end Sys2Proof.Machine
end

