-- ==== Sys2Proof/Certificates/Slice0/Obligations.lean ====
section
/-! DEFINITION. The statements for the provers. A clause that rests on a decision of the spec's own (a row D<n> of
spec/92_eei_decisions.md) or on a log entry of the model is named in its docstring. -/

open Sys2Proof Sys2Proof.Machine

/-- Decoding the bytes of an encoded well-formed instruction gives it back, and leaves the bytes after it
(30_encoding.md sections 2 and 4; the little-endian byte order is D19). -/
def Obligations.DecodeOfEncode : Prop :=
  ∀ (i : Instr) (rest : List Byte), i.WellFormed → decode (wordBytes (encode i) ++ rest) = .ok (i, rest)

/-- A word that decodes is the word of the well-formed instruction it decodes to: inside the class no bit is dropped
(30_encoding.md sections 2, 4 and 5; which words are of the class is D14, D15 and D21). -/
def Obligations.EncodeOfDecode : Prop :=
  ∀ (w : Word) (i : Instr), decodeWord w = .ok i → i.WellFormed ∧ encode i = w

/-- Six words written out in 95_test_vectors.md (sections 2.2, 2.4 and 3.4) decode to the instructions they stand for, by
the field encodings the spec decided (D2, D4, D5, D6; log 7), and two words of section 2.2 outside the class, 0xE0000090
and 0xE10F0000, are refused (D14, D15, D21; log 5, log 7). -/
def Obligations.SpecWordsDecode : Prop :=
  decodeTableWord 32 0xE21104FF = some (.and .al true 1 0 (.imm 4 0xFF)) ∧
  decodeTableWord 32 0xE1813202 = some (.orr .al false 1 3 (.regImm 2 .lsl 4)) ∧
  decodeTableWord 32 0xE1B00211 = some (.mov .al true 0 0 (.regReg 1 .lsl 2)) ∧
  decodeTableWord 32 0xE0D10002 = some (.sbc .al true 1 0 (.regImm 2 .lsl 0)) ∧
  decodeTableWord 32 0xE1510002 = some (.cmp .al 1 0 (.regImm 2 .lsl 0)) ∧
  decodeTableWord 32 0x124FF010 = some (.sub .ne false 15 15 (.imm 0 0x10)) ∧
  decodeTableWord 32 0xE0000090 = none ∧
  decodeTableWord 32 0xE10F0000 = none

/-- The model's decoder accepts exactly the words of the data-processing class: bits 27:26 are 00, not (bit 25 is 0 and
bits 7 and 4 are 1), and not (bits 24:23 are 10 and bit 20 is 0). The class is the spec's decision D14, D15, D21. -/
def Obligations.DecoderAcceptsExactlyTheClass : Prop :=
  ∀ w : Word, (∃ i, decodeWord w = .ok i) ↔
    (w.getLsbD 27 = false ∧ w.getLsbD 26 = false ∧
      ¬ (w.getLsbD 25 = false ∧ w.getLsbD 7 = true ∧ w.getLsbD 4 = true) ∧
      ¬ (w.getLsbD 24 = true ∧ w.getLsbD 23 = false ∧ w.getLsbD 20 = false))

/-- The block's own total `decode` reads each field from its bits of the word, the conditions and the operations being
numbered by their place in the spec's lists. The numbers of the conditions are D2, the operand-2 sub-fields D4, the
polarity of bit 25 D5, the shift-type numbers D6. -/
def Obligations.FieldsOfAWord : Prop :=
  ∀ w : Word,
    let bits := fun lo len => w.toNat / 2 ^ lo % 2 ^ len
    let d := decodeFields w
    ([.eq, .ne, .cs, .cc, .mi, .pl, .vs, .vc, .hi, .ls, .ge, .lt, .gt, .le, .al, .reserved] : List Cond)[bits 28 4]?
      = some d.cond ∧
    ([.and, .eor, .sub, .rsb, .add, .adc, .sbc, .rsc, .tst, .teq, .cmp, .cmn, .orr, .mov, .bic, .mvn]
      : List Opcode)[bits 21 4]? = some d.opcode ∧
    (d.setFlags = true ↔ bits 20 1 = 1) ∧ d.rn.val = bits 16 4 ∧ d.rd.val = bits 12 4 ∧
    ∃ shift : ShiftType, ([.lsl, .lsr, .asr, .ror] : List ShiftType)[bits 5 2]? = some shift ∧
      d.op2 =
        if bits 25 1 = 1 then .imm (bits 8 4) (BitVec.ofNat 8 (bits 0 8))
        else if bits 4 1 = 1 then .regReg (Fin.ofNat 16 (bits 0 4)) shift (Fin.ofNat 16 (bits 8 4))
        else .regImm (Fin.ofNat 16 (bits 0 4)) shift (bits 7 5)

/-- A step runs the decoded instruction: when the bytes of the next call's word decode to `i`, the step is `exec i` from
the state in which the host's writes of that call are made and the call is consumed. The list of calls is the model's
(log 1); the writes between steps are D24. -/
def Obligations.StepRunsTheDecodedInstruction : Prop :=
  ∀ (s : State) (c : HostCall) (rest : List HostCall) (i : Instr), s.input = c :: rest →
    decode (wordBytes c.word) = .ok (i, []) → step s = exec i (stateForCall c rest s)

/-- A word placed with `withFetchWord` is the one the very next step runs, from the state as it was (log 4). -/
def Obligations.FetchWordRunsNext : Prop :=
  ∀ (s : State) (w : Nat) (i : Instr), decodeTableWord 32 w = some i → step (s.withFetchWord 32 w) = exec i s

/-- The truth table of the condition evaluator, each condition by its name, and the reserved encoding failing for every
flag combination (40_condition.md; that the reserved encoding is 1111 is D2 and is not stated here). -/
def Obligations.ConditionTruthTable : Prop :=
  ∀ s : State,
    let n := s.flag .n; let z := s.flag .z; let c := s.flag .c; let v := s.flag .v
    (∀ cond, FailsCond cond s ↔ (cond ≠ .reserved ∧ ¬ Passes cond s)) ∧ s.evaluate .reserved = none ∧
    (Passes .eq s ↔ z = true) ∧ (Passes .ne s ↔ z = false) ∧ (Passes .cs s ↔ c = true) ∧ (Passes .cc s ↔ c = false) ∧
    (Passes .mi s ↔ n = true) ∧ (Passes .pl s ↔ n = false) ∧ (Passes .vs s ↔ v = true) ∧ (Passes .vc s ↔ v = false) ∧
    (Passes .hi s ↔ c = true ∧ z = false) ∧ (Passes .ls s ↔ c = false ∨ z = true) ∧
    (Passes .ge s ↔ n = v) ∧ (Passes .lt s ↔ n ≠ v) ∧ (Passes .gt s ↔ z = false ∧ n = v) ∧
    (Passes .le s ↔ z = true ∨ n ≠ v) ∧ Passes .al s

/-- After a CMP of a and b that ran, the conditions compare a with b, unsigned and signed; MI and PL tell the sign of the
32-bit difference and VS whether the exact signed difference lies outside the signed range (40_condition.md, derived
there). -/
def Obligations.ConditionsAfterCompare : Prop :=
  ∀ (cond : Cond) (rn rd : RegId) (op2 : Operand2) (s t : State), Passes cond s →
    exec (.cmp cond rn rd op2) s = .next t →
    let a := s.reg rn
    let b := (resolve op2 s).value
    (Passes .eq t ↔ a = b) ∧ (Passes .ne t ↔ a ≠ b) ∧
    (Passes .cs t ↔ b.toNat ≤ a.toNat) ∧ (Passes .cc t ↔ a.toNat < b.toNat) ∧
    (Passes .hi t ↔ b.toNat < a.toNat) ∧ (Passes .ls t ↔ a.toNat ≤ b.toNat) ∧
    (Passes .ge t ↔ b.toInt ≤ a.toInt) ∧ (Passes .lt t ↔ a.toInt < b.toInt) ∧
    (Passes .gt t ↔ b.toInt < a.toInt) ∧ (Passes .le t ↔ a.toInt ≤ b.toInt) ∧
    (Passes .mi t ↔ (a - b).toInt < 0) ∧ (Passes .pl t ↔ 0 ≤ (a - b).toInt) ∧
    (Passes .vs t ↔ (a.toInt - b.toInt < -2 ^ 31 ∨ 2 ^ 31 ≤ a.toInt - b.toInt)) ∧
    (Passes .vc t ↔ (-2 ^ 31 ≤ a.toInt - b.toInt ∧ a.toInt - b.toInt < 2 ^ 31))

/-- The immediate operand: imm8 zero-extended and rotated right by twice the rotate field, so bit k of the value is bit
(k + 2 * rotate) mod 32 of imm8; the carry is C for rotate 0 and bit 31 of the value otherwise. -/
def Obligations.ImmediateOperand : Prop :=
  ∀ (rotate : Nat) (imm8 : BitVec 8) (s : State), rotate < 16 →
    let o := resolve (.imm rotate imm8) s
    (∀ k, k < 32 → o.value.getLsbD k = imm8.getLsbD ((k + 2 * rotate) % 32)) ∧
    (rotate = 0 → o.carry = s.flag .c) ∧ (rotate ≠ 0 → o.carry = o.value.getLsbD 31)

/-- LSL by an immediate amount, 0 to 31. -/
def Obligations.LslByImmediate : Prop :=
  ∀ (rm : RegId) (n : Nat) (s : State), n ≤ 31 →
    let v := s.reg rm
    let o := resolve (.regImm rm .lsl n) s
    (n = 0 → o.value = v ∧ o.carry = s.flag .c) ∧
    (1 ≤ n → o.value.toNat = v.toNat * 2 ^ n % 2 ^ 32 ∧ o.carry = v.getLsbD (32 - n))

/-- For a shift by 1 to 31 positions, by an immediate amount or by a register's low byte, the carry-out is the last bit
shifted out, which for ROR is the bit that lands in position 31. -/
def Obligations.CarryIsLastBitShiftedOut : Prop :=
  ∀ (rm rs : RegId) (n : Nat) (s : State), 1 ≤ n → n ≤ 31 →
    let v := s.reg rm
    ((resolve (.regImm rm .lsl n) s).carry = v.getLsbD (32 - n) ∧
      (resolve (.regImm rm .lsr n) s).carry = v.getLsbD (n - 1) ∧
      (resolve (.regImm rm .asr n) s).carry = v.getLsbD (n - 1) ∧
      (resolve (.regImm rm .ror n) s).carry = v.getLsbD (n - 1) ∧
      (resolve (.regImm rm .ror n) s).value.getLsbD 31 = v.getLsbD (n - 1)) ∧
    ((s.reg rs).toNat % 256 = n →
      (resolve (.regReg rm .lsl rs) s).carry = v.getLsbD (32 - n) ∧
      (resolve (.regReg rm .lsr rs) s).carry = v.getLsbD (n - 1) ∧
      (resolve (.regReg rm .asr rs) s).carry = v.getLsbD (n - 1) ∧
      (resolve (.regReg rm .ror rs) s).carry = v.getLsbD (n - 1) ∧
      (resolve (.regReg rm .ror rs) s).value.getLsbD 31 = v.getLsbD (n - 1))

/-- LSR, ASR and ROR by an immediate amount, 0 to 31. That amount 0 means LSR #32, ASR #32 and RRX is the spec's decision
D7. -/
def Obligations.LsrAsrRorByImmediate : Prop :=
  ∀ (rm : RegId) (n : Nat) (s : State), n ≤ 31 →
    let v := s.reg rm
    let lsrOut := resolve (.regImm rm .lsr n) s
    let asrOut := resolve (.regImm rm .asr n) s
    let rorOut := resolve (.regImm rm .ror n) s
    (n = 0 →
      (lsrOut.value = 0 ∧ lsrOut.carry = v.getLsbD 31) ∧
      ((∀ k, k < 32 → asrOut.value.getLsbD k = v.getLsbD 31) ∧ asrOut.carry = v.getLsbD 31) ∧
      (rorOut.value.getLsbD 31 = s.flag .c ∧ (∀ k, k < 31 → rorOut.value.getLsbD k = v.getLsbD (k + 1)) ∧
        rorOut.carry = v.getLsbD 0)) ∧
    (1 ≤ n →
      (lsrOut.value.toNat = v.toNat / 2 ^ n ∧ lsrOut.carry = v.getLsbD (n - 1)) ∧
      (asrOut.value.toInt = v.toInt / 2 ^ n ∧ asrOut.carry = v.getLsbD (n - 1)) ∧
      ((∀ k, k < 32 → rorOut.value.getLsbD k = v.getLsbD ((k + n) % 32)) ∧ rorOut.carry = v.getLsbD (n - 1)))

/-- LSL by a register's low byte, every amount 0 to 255 (41_shifter.md section 3; amount 0 is D8, and amount 32 is derived
there from the last bit shifted out). -/
def Obligations.LslByRegister : Prop :=
  ∀ (rm rs : RegId) (s : State),
    let v := s.reg rm
    let n := (s.reg rs).toNat % 256
    let o := resolve (.regReg rm .lsl rs) s
    (n = 0 → o.value = v ∧ o.carry = s.flag .c) ∧
    (1 ≤ n → n ≤ 31 → o.value.toNat = v.toNat * 2 ^ n % 2 ^ 32 ∧ o.carry = v.getLsbD (32 - n)) ∧
    (n = 32 → o.value = 0 ∧ o.carry = v.getLsbD 0) ∧
    (33 ≤ n → o.value = 0 ∧ o.carry = false)

/-- LSR by a register's low byte, every amount 0 to 255 (41_shifter.md section 3; amount 0 is the spec's decision D8). -/
def Obligations.LsrByRegister : Prop :=
  ∀ (rm rs : RegId) (s : State),
    let v := s.reg rm
    let n := (s.reg rs).toNat % 256
    let o := resolve (.regReg rm .lsr rs) s
    (n = 0 → o.value = v ∧ o.carry = s.flag .c) ∧
    (1 ≤ n → n ≤ 31 → o.value.toNat = v.toNat / 2 ^ n ∧ o.carry = v.getLsbD (n - 1)) ∧
    (n = 32 → o.value = 0 ∧ o.carry = v.getLsbD 31) ∧
    (33 ≤ n → o.value = 0 ∧ o.carry = false)

/-- ASR and ROR by a register's low byte, every amount 0 to 255 (41_shifter.md section 3). Amount 0 is the spec's decision
D8; ASR by 32 or more and ROR by a register amount are D9. -/
def Obligations.AsrRorByRegister : Prop :=
  ∀ (rm rs : RegId) (s : State),
    let v := s.reg rm
    let n := (s.reg rs).toNat % 256
    let asrOut := resolve (.regReg rm .asr rs) s
    let rorOut := resolve (.regReg rm .ror rs) s
    (n = 0 → asrOut = ⟨v, s.flag .c⟩ ∧ rorOut = ⟨v, s.flag .c⟩) ∧
    (1 ≤ n → n ≤ 31 → asrOut.value.toInt = v.toInt / 2 ^ n ∧ asrOut.carry = v.getLsbD (n - 1)) ∧
    (32 ≤ n → (∀ k, k < 32 → asrOut.value.getLsbD k = v.getLsbD 31) ∧ asrOut.carry = v.getLsbD 31) ∧
    (n ≠ 0 → n % 32 = 0 → rorOut.value = v ∧ rorOut.carry = v.getLsbD 31) ∧
    (n ≠ 0 → n % 32 ≠ 0 →
      (∀ k, k < 32 → rorOut.value.getLsbD k = v.getLsbD ((k + n) % 32)) ∧ rorOut.carry = v.getLsbD (n % 32 - 1))

/-- The status register's contract, for each of N, Z, C, V and Q: set is an OR with the flag's mask and clear an AND with
the inverted mask, is_set reads the flag's bit, and every other bit is untouched. -/
def Obligations.StatusRegisterContract : Prop :=
  ∀ (w : Word) (f : Flag),
    setFlag w f = w ||| BitVec.twoPow 32 (flagPos f) ∧ clearFlag w f = w &&& ~~~(BitVec.twoPow 32 (flagPos f)) ∧
    (isSet w f = true ↔ w.toNat / 2 ^ flagPos f % 2 = 1) ∧
    (∀ b, writeFlag w f b = if b then setFlag w f else clearFlag w f) ∧
    isSet (setFlag w f) f = true ∧ isSet (clearFlag w f) f = false ∧
    (∀ k, k ≠ flagPos f → (setFlag w f).getLsbD k = w.getLsbD k ∧ (clearFlag w f).getLsbD k = w.getLsbD k) ∧
    (∀ g, g ≠ f → isSet (setFlag w f) g = isSet w g ∧ isSet (clearFlag w f) g = isSet w g)

/-- Where the flags stand in the status word: N 31, Z 30, C 29, V 28, Q 27. The positions are the spec's decision D3. -/
def Obligations.FlagPositions : Prop :=
  ∀ s : State, s.flag .n = s.cpsr.getLsbD 31 ∧ s.flag .z = s.cpsr.getLsbD 30 ∧ s.flag .c = s.cpsr.getLsbD 29 ∧
    s.flag .v = s.cpsr.getLsbD 28 ∧ s.flag .q = s.cpsr.getLsbD 27

/-- Bits of the status word outside N, Z, C and V are preserved by every instruction that answers a next state (derived in
10_state.md section 4), and by setting or clearing one of those four flags. -/
def Obligations.ReservedBitsPreserved : Prop :=
  (∀ (i : Instr) (s t : State), exec i s = .next t → SameReservedBits s t) ∧
  (∀ (w : Word) (f : Flag) (k : Nat), f ≠ .q → ¬ isNZCVBit k →
    (setFlag w f).getLsbD k = w.getLsbD k ∧ (clearFlag w f).getLsbD k = w.getLsbD k)

/-- The status word changes only if the condition passed, S = 1 and no error was raised (an error gives no next state of
the instruction, and leaves the block's status word as it was); no instruction changes a bit of it other than N, Z, C
and V. -/
def Obligations.FlagsOnlyWithS : Prop :=
  (∀ (i : Instr) (s t : State), exec i s = .next t →
    SameReservedBits s t ∧ (i.setFlags = false → t.cpsr = s.cpsr) ∧ (¬ Passes i.cond s → t.cpsr = s.cpsr)) ∧
  (∀ (d : DecodedInstruction) (s : State), (blockExecute d s).1 ≠ .ok → (blockExecute d s).2.cpsr = s.cpsr)

/-- For every operation with S = 1 that ran, N is bit 31 of the 32-bit result of the operation table and Z says that it
is 0, whether or not it is written to Rd. -/
def Obligations.NegativeAndZeroFromResult : Prop :=
  ∀ (i : Instr) (s t : State), Passes i.cond s → i.setFlags = true → exec i s = .next t →
    let res := aluResult i.opcode (s.reg i.rn) (resolve i.op2 s).value (s.flag .c)
    t.flag .n = res.getLsbD 31 ∧ (t.flag .z = true ↔ res = 0)

/-- For the eight logical operations with S = 1 that ran, C is the shifter carry and V is unchanged. -/
def Obligations.LogicalCarryAndOverflow : Prop :=
  ∀ (i : Instr) (s t : State), i.opcode ∈ [.and, .eor, .tst, .teq, .orr, .mov, .bic, .mvn] →
    Passes i.cond s → i.setFlags = true → exec i s = .next t →
    t.flag .c = (resolve i.op2 s).carry ∧ t.flag .v = s.flag .v

/-- For ADD, ADC and CMN with S = 1 that ran, C is 1 exactly when the exact unsigned sum of the operands and the carry-in
(C for ADC, 0 for the others) reaches 2^32. -/
def Obligations.AdditiveCarry : Prop :=
  ∀ (i : Instr) (s t : State), i.opcode ∈ [.add, .adc, .cmn] → Passes i.cond s → i.setFlags = true →
    exec i s = .next t →
    (t.flag .c = true ↔
      2 ^ 32 ≤ (s.reg i.rn).toNat + (resolve i.op2 s).value.toNat
        + (if i.opcode = .adc ∧ s.flag .c = true then 1 else 0))

/-- For SUB, RSB, SBC, RSC and CMP with S = 1 that ran, C is 1 exactly when no borrow occurred, with the minuend and the
subtrahend of each operation: m ≥ t for SUB, CMP and RSB and for SBC and RSC after C = 1, m > t for SBC and RSC after
C = 0. -/
def Obligations.SubtractiveCarry : Prop :=
  ∀ (i : Instr) (s t : State), Passes i.cond s → i.setFlags = true → exec i s = .next t →
    let op1 := (s.reg i.rn).toNat
    let op2 := (resolve i.op2 s).value.toNat
    (i.opcode = .sub ∨ i.opcode = .cmp → (t.flag .c = true ↔ op2 ≤ op1)) ∧
    (i.opcode = .rsb → (t.flag .c = true ↔ op1 ≤ op2)) ∧
    (i.opcode = .sbc → s.flag .c = true → (t.flag .c = true ↔ op2 ≤ op1)) ∧
    (i.opcode = .sbc → s.flag .c = false → (t.flag .c = true ↔ op2 < op1)) ∧
    (i.opcode = .rsc → s.flag .c = true → (t.flag .c = true ↔ op1 ≤ op2)) ∧
    (i.opcode = .rsc → s.flag .c = false → (t.flag .c = true ↔ op1 < op2))

/-- V after an additive or subtractive operation with S = 1 says that the exact signed result lies outside the signed
32-bit range (42_execute.md section 3, where it is derived from the sign rules). -/
def Obligations.OverflowIsSignedRange : Prop :=
  ∀ (i : Instr) (s t : State), opClass i.opcode ≠ .logical → Passes i.cond s → i.setFlags = true →
    exec i s = .next t →
    let op1 := (s.reg i.rn).toInt
    let op2 := (resolve i.op2 s).value.toInt
    let c : Int := if s.flag .c then 1 else 0
    let exact : Int :=
      match i.opcode with
      | .add | .cmn => op1 + op2
      | .adc => op1 + op2 + c
      | .sub | .cmp => op1 - op2
      | .sbc => op1 - op2 - (1 - c)
      | .rsb => op2 - op1
      | .rsc => op2 - op1 - (1 - c)
      | _ => 0
    (t.flag .v = true ↔ (exact < -2 ^ 31 ∨ 2 ^ 31 ≤ exact))

/-- AND with a passing condition, other than S = 1 with Rd = 15: its word has its S, Rn and Rd and opcode 0x0, it
completes, Rd receives the result and no other register changes; with S = 1, N and Z are the result's, C the shifter
carry and V unchanged; with S = 0 the status word is unchanged, and its other bits always are. -/
def Obligations.AndCompletes : Prop :=
  ∀ (cond : Cond) (sf : Bool) (rn rd : RegId) (op2 : Operand2) (s : State), Passes cond s → ¬ PcWithS sf rd →
    let a := s.reg rn
    let b := (resolve op2 s).value
    let res := a &&& b
    HasOpcodeBits (.and cond sf rn rd op2) 0x0 ∧
    ∃ t, exec (.and cond sf rn rd op2) s = .next t ∧ WritesOnly rd res s t ∧
      StatusAfter sf s t (res.getLsbD 31) (res == 0) (resolve op2 s).carry (s.flag .v)

/-- EOR with a passing condition, other than S = 1 with Rd = 15: its word has its S, Rn and Rd and opcode 0x1, it
completes, Rd receives the result and no other register changes; with S = 1, N and Z are the result's, C the shifter
carry and V unchanged; with S = 0 the status word is unchanged, and its other bits always are. -/
def Obligations.EorCompletes : Prop :=
  ∀ (cond : Cond) (sf : Bool) (rn rd : RegId) (op2 : Operand2) (s : State), Passes cond s → ¬ PcWithS sf rd →
    let a := s.reg rn
    let b := (resolve op2 s).value
    let res := a ^^^ b
    HasOpcodeBits (.eor cond sf rn rd op2) 0x1 ∧
    ∃ t, exec (.eor cond sf rn rd op2) s = .next t ∧ WritesOnly rd res s t ∧
      StatusAfter sf s t (res.getLsbD 31) (res == 0) (resolve op2 s).carry (s.flag .v)

/-- ORR with a passing condition, other than S = 1 with Rd = 15: its word has its S, Rn and Rd and opcode 0xC, it
completes, Rd receives the result and no other register changes; with S = 1, N and Z are the result's, C the shifter
carry and V unchanged; with S = 0 the status word is unchanged, and its other bits always are. -/
def Obligations.OrrCompletes : Prop :=
  ∀ (cond : Cond) (sf : Bool) (rn rd : RegId) (op2 : Operand2) (s : State), Passes cond s → ¬ PcWithS sf rd →
    let a := s.reg rn
    let b := (resolve op2 s).value
    let res := a ||| b
    HasOpcodeBits (.orr cond sf rn rd op2) 0xC ∧
    ∃ t, exec (.orr cond sf rn rd op2) s = .next t ∧ WritesOnly rd res s t ∧
      StatusAfter sf s t (res.getLsbD 31) (res == 0) (resolve op2 s).carry (s.flag .v)

/-- MOV with a passing condition, other than S = 1 with Rd = 15: its word has its S, Rn and Rd and opcode 0xD, it
completes, Rd receives the result and no other register changes; with S = 1, N and Z are the result's, C the shifter
carry and V unchanged; with S = 0 the status word is unchanged, and its other bits always are. Rn is not used. -/
def Obligations.MovCompletes : Prop :=
  ∀ (cond : Cond) (sf : Bool) (rn rd : RegId) (op2 : Operand2) (s : State), Passes cond s → ¬ PcWithS sf rd →
    let b := (resolve op2 s).value
    let res := b
    HasOpcodeBits (.mov cond sf rn rd op2) 0xD ∧
    ∃ t, exec (.mov cond sf rn rd op2) s = .next t ∧ WritesOnly rd res s t ∧
      StatusAfter sf s t (res.getLsbD 31) (res == 0) (resolve op2 s).carry (s.flag .v)

/-- BIC with a passing condition, other than S = 1 with Rd = 15: its word has its S, Rn and Rd and opcode 0xE, it
completes, Rd receives the result and no other register changes; with S = 1, N and Z are the result's, C the shifter
carry and V unchanged; with S = 0 the status word is unchanged, and its other bits always are. -/
def Obligations.BicCompletes : Prop :=
  ∀ (cond : Cond) (sf : Bool) (rn rd : RegId) (op2 : Operand2) (s : State), Passes cond s → ¬ PcWithS sf rd →
    let a := s.reg rn
    let b := (resolve op2 s).value
    let res := a &&& ~~~b
    HasOpcodeBits (.bic cond sf rn rd op2) 0xE ∧
    ∃ t, exec (.bic cond sf rn rd op2) s = .next t ∧ WritesOnly rd res s t ∧
      StatusAfter sf s t (res.getLsbD 31) (res == 0) (resolve op2 s).carry (s.flag .v)

/-- MVN with a passing condition, other than S = 1 with Rd = 15: its word has its S, Rn and Rd and opcode 0xF, it
completes, Rd receives the result and no other register changes; with S = 1, N and Z are the result's, C the shifter
carry and V unchanged; with S = 0 the status word is unchanged, and its other bits always are. Rn is not used. -/
def Obligations.MvnCompletes : Prop :=
  ∀ (cond : Cond) (sf : Bool) (rn rd : RegId) (op2 : Operand2) (s : State), Passes cond s → ¬ PcWithS sf rd →
    let b := (resolve op2 s).value
    let res := ~~~b
    HasOpcodeBits (.mvn cond sf rn rd op2) 0xF ∧
    ∃ t, exec (.mvn cond sf rn rd op2) s = .next t ∧ WritesOnly rd res s t ∧
      StatusAfter sf s t (res.getLsbD 31) (res == 0) (resolve op2 s).carry (s.flag .v)

/-- SUB with a passing condition, other than S = 1 with Rd = 15: its word has its S, Rn and Rd and opcode 0x2, it
completes, Rd receives the result of a = x[Rn] and b = operand 2 and no other register changes; with S = 1, N and Z
are the result's, C says that a ≥ b unsigned and V that a and b differ in sign and the result has the sign of b; with
S = 0 the status word is unchanged, and its other bits always are. -/
def Obligations.SubCompletes : Prop :=
  ∀ (cond : Cond) (sf : Bool) (rn rd : RegId) (op2 : Operand2) (s : State), Passes cond s → ¬ PcWithS sf rd →
    let a := s.reg rn
    let b := (resolve op2 s).value
    let res := a - b
    HasOpcodeBits (.sub cond sf rn rd op2) 0x2 ∧
    ∃ t, exec (.sub cond sf rn rd op2) s = .next t ∧ WritesOnly rd res s t ∧
      StatusAfter sf s t (res.getLsbD 31) (res == 0) (decide (b.toNat ≤ a.toNat))
        (a.getLsbD 31 != b.getLsbD 31 && res.getLsbD 31 == b.getLsbD 31)

/-- RSB with a passing condition, other than S = 1 with Rd = 15: its word has its S, Rn and Rd and opcode 0x3, it
completes, Rd receives the result of a = x[Rn] and b = operand 2 and no other register changes; with S = 1, N and Z
are the result's, C says that b ≥ a unsigned and V that b and a differ in sign and the result has the sign of a; with
S = 0 the status word is unchanged, and its other bits always are. -/
def Obligations.RsbCompletes : Prop :=
  ∀ (cond : Cond) (sf : Bool) (rn rd : RegId) (op2 : Operand2) (s : State), Passes cond s → ¬ PcWithS sf rd →
    let a := s.reg rn
    let b := (resolve op2 s).value
    let res := b - a
    HasOpcodeBits (.rsb cond sf rn rd op2) 0x3 ∧
    ∃ t, exec (.rsb cond sf rn rd op2) s = .next t ∧ WritesOnly rd res s t ∧
      StatusAfter sf s t (res.getLsbD 31) (res == 0) (decide (a.toNat ≤ b.toNat))
        (b.getLsbD 31 != a.getLsbD 31 && res.getLsbD 31 == a.getLsbD 31)

/-- ADD with a passing condition, other than S = 1 with Rd = 15: its word has its S, Rn and Rd and opcode 0x4, it
completes, Rd receives the result of a = x[Rn] and b = operand 2 and no other register changes; with S = 1, N and Z
are the result's, C says that a + b reaches 2^32 and V that a and b share a sign and the result has the other; with S
= 0 the status word is unchanged, and its other bits always are. -/
def Obligations.AddCompletes : Prop :=
  ∀ (cond : Cond) (sf : Bool) (rn rd : RegId) (op2 : Operand2) (s : State), Passes cond s → ¬ PcWithS sf rd →
    let a := s.reg rn
    let b := (resolve op2 s).value
    let res := a + b
    HasOpcodeBits (.add cond sf rn rd op2) 0x4 ∧
    ∃ t, exec (.add cond sf rn rd op2) s = .next t ∧ WritesOnly rd res s t ∧
      StatusAfter sf s t (res.getLsbD 31) (res == 0) (decide (2 ^ 32 ≤ a.toNat + b.toNat))
        (a.getLsbD 31 == b.getLsbD 31 && res.getLsbD 31 != a.getLsbD 31)

/-- ADC with a passing condition, other than S = 1 with Rd = 15: its word has its S, Rn and Rd and opcode 0x5, it
completes, Rd receives the result of a = x[Rn] and b = operand 2 and no other register changes; with S = 1, N and Z
are the result's, C says that a + b + C reaches 2^32 and V that a and b share a sign and the result has the other;
with S = 0 the status word is unchanged, and its other bits always are. -/
def Obligations.AdcCompletes : Prop :=
  ∀ (cond : Cond) (sf : Bool) (rn rd : RegId) (op2 : Operand2) (s : State), Passes cond s → ¬ PcWithS sf rd →
    let a := s.reg rn
    let b := (resolve op2 s).value
    let cin : Nat := if s.flag .c then 1 else 0
    let res := a + b + BitVec.ofNat 32 cin
    HasOpcodeBits (.adc cond sf rn rd op2) 0x5 ∧
    ∃ t, exec (.adc cond sf rn rd op2) s = .next t ∧ WritesOnly rd res s t ∧
      StatusAfter sf s t (res.getLsbD 31) (res == 0) (decide (2 ^ 32 ≤ a.toNat + b.toNat + cin))
        (a.getLsbD 31 == b.getLsbD 31 && res.getLsbD 31 != a.getLsbD 31)

/-- SBC with a passing condition, other than S = 1 with Rd = 15: its word has its S, Rn and Rd and opcode 0x6, it
completes, Rd receives the result of a = x[Rn] and b = operand 2 and no other register changes; with S = 1, N and Z
are the result's, C says that a ≥ b + (1 - C) unsigned and V that a and b differ in sign and the result has the sign
of b; with S = 0 the status word is unchanged, and its other bits always are. -/
def Obligations.SbcCompletes : Prop :=
  ∀ (cond : Cond) (sf : Bool) (rn rd : RegId) (op2 : Operand2) (s : State), Passes cond s → ¬ PcWithS sf rd →
    let a := s.reg rn
    let b := (resolve op2 s).value
    let cin : Nat := if s.flag .c then 1 else 0
    let res := a - b - BitVec.ofNat 32 (1 - cin)
    HasOpcodeBits (.sbc cond sf rn rd op2) 0x6 ∧
    ∃ t, exec (.sbc cond sf rn rd op2) s = .next t ∧ WritesOnly rd res s t ∧
      StatusAfter sf s t (res.getLsbD 31) (res == 0) (decide (b.toNat + (1 - cin) ≤ a.toNat))
        (a.getLsbD 31 != b.getLsbD 31 && res.getLsbD 31 == b.getLsbD 31)

/-- RSC with a passing condition, other than S = 1 with Rd = 15: its word has its S, Rn and Rd and opcode 0x7, it
completes, Rd receives the result of a = x[Rn] and b = operand 2 and no other register changes; with S = 1, N and Z
are the result's, C says that b ≥ a + (1 - C) unsigned and V that b and a differ in sign and the result has the sign
of a; with S = 0 the status word is unchanged, and its other bits always are. -/
def Obligations.RscCompletes : Prop :=
  ∀ (cond : Cond) (sf : Bool) (rn rd : RegId) (op2 : Operand2) (s : State), Passes cond s → ¬ PcWithS sf rd →
    let a := s.reg rn
    let b := (resolve op2 s).value
    let cin : Nat := if s.flag .c then 1 else 0
    let res := b - a - BitVec.ofNat 32 (1 - cin)
    HasOpcodeBits (.rsc cond sf rn rd op2) 0x7 ∧
    ∃ t, exec (.rsc cond sf rn rd op2) s = .next t ∧ WritesOnly rd res s t ∧
      StatusAfter sf s t (res.getLsbD 31) (res == 0) (decide (a.toNat + (1 - cin) ≤ b.toNat))
        (b.getLsbD 31 != a.getLsbD 31 && res.getLsbD 31 == a.getLsbD 31)

/-- TST with a passing condition and Rd other than 15: its word has S = 1, its Rn and Rd and opcode 0x8, it completes
and no register changes; N and Z are those of the discarded result, C is the shifter carry and V is unchanged; no
other bit of the status word changes. -/
def Obligations.TstCompletes : Prop :=
  ∀ (cond : Cond) (rn rd : RegId) (op2 : Operand2) (s : State), Passes cond s → rd ≠ pcReg →
    let a := s.reg rn
    let b := (resolve op2 s).value
    let res := a &&& b
    HasOpcodeBits (.tst cond rn rd op2) 0x8 ∧ (encode (.tst cond rn rd op2)).getLsbD 20 = true ∧
    ∃ t, exec (.tst cond rn rd op2) s = .next t ∧ WritesNothing s t ∧
      StatusAfter true s t (res.getLsbD 31) (res == 0) (resolve op2 s).carry
        (s.flag .v)

/-- TEQ with a passing condition and Rd other than 15: its word has S = 1, its Rn and Rd and opcode 0x9, it completes
and no register changes; N and Z are those of the discarded result, C is the shifter carry and V is unchanged; no
other bit of the status word changes. -/
def Obligations.TeqCompletes : Prop :=
  ∀ (cond : Cond) (rn rd : RegId) (op2 : Operand2) (s : State), Passes cond s → rd ≠ pcReg →
    let a := s.reg rn
    let b := (resolve op2 s).value
    let res := a ^^^ b
    HasOpcodeBits (.teq cond rn rd op2) 0x9 ∧ (encode (.teq cond rn rd op2)).getLsbD 20 = true ∧
    ∃ t, exec (.teq cond rn rd op2) s = .next t ∧ WritesNothing s t ∧
      StatusAfter true s t (res.getLsbD 31) (res == 0) (resolve op2 s).carry
        (s.flag .v)

/-- CMP with a passing condition and Rd other than 15: its word has S = 1, its Rn and Rd and opcode 0xA, it completes
and no register changes; N and Z are those of the discarded result, C says that a ≥ b unsigned and V that a and b
differ in sign and the result has the sign of b; no other bit of the status word changes. -/
def Obligations.CmpCompletes : Prop :=
  ∀ (cond : Cond) (rn rd : RegId) (op2 : Operand2) (s : State), Passes cond s → rd ≠ pcReg →
    let a := s.reg rn
    let b := (resolve op2 s).value
    let res := a - b
    HasOpcodeBits (.cmp cond rn rd op2) 0xA ∧ (encode (.cmp cond rn rd op2)).getLsbD 20 = true ∧
    ∃ t, exec (.cmp cond rn rd op2) s = .next t ∧ WritesNothing s t ∧
      StatusAfter true s t (res.getLsbD 31) (res == 0) (decide (b.toNat ≤ a.toNat))
        (a.getLsbD 31 != b.getLsbD 31 && res.getLsbD 31 == b.getLsbD 31)

/-- CMN with a passing condition and Rd other than 15: its word has S = 1, its Rn and Rd and opcode 0xB, it completes
and no register changes; N and Z are those of the discarded result, C says that a + b reaches 2^32 and V that a and b
share a sign and the result has the other; no other bit of the status word changes. -/
def Obligations.CmnCompletes : Prop :=
  ∀ (cond : Cond) (rn rd : RegId) (op2 : Operand2) (s : State), Passes cond s → rd ≠ pcReg →
    let a := s.reg rn
    let b := (resolve op2 s).value
    let res := a + b
    HasOpcodeBits (.cmn cond rn rd op2) 0xB ∧ (encode (.cmn cond rn rd op2)).getLsbD 20 = true ∧
    ∃ t, exec (.cmn cond rn rd op2) s = .next t ∧ WritesNothing s t ∧
      StatusAfter true s t (res.getLsbD 31) (res == 0) (decide (2 ^ 32 ≤ a.toNat + b.toNat))
        (a.getLsbD 31 == b.getLsbD 31 && res.getLsbD 31 != a.getLsbD 31)

/-- The 12 operations that write Rd complete with the result of the operation table in Rd and no other register written,
for every Rd but S = 1 with Rd = 15, which is IllegalDestination; TST, TEQ, CMP and CMN never write a register. -/
def Obligations.RegisterWrites : Prop :=
  ∀ (i : Instr) (s : State), Passes i.cond s →
    (i.opcode ∈ [.and, .eor, .sub, .rsb, .add, .adc, .sbc, .rsc, .orr, .mov, .bic, .mvn] →
      (¬ PcWithS i.setFlags i.rd → ∃ t, exec i s = .next t ∧
        WritesOnly i.rd (aluResult i.opcode (s.reg i.rn) (resolve i.op2 s).value (s.flag .c)) s t) ∧
      (PcWithS i.setFlags i.rd → exec i s = .fault .illegalDestination)) ∧
    (i.opcode ∈ [.tst, .teq, .cmp, .cmn] → ∀ t, exec i s = .next t → WritesNothing s t)

/-- A data-processing instruction that writes Rd = 15, whose condition passes: with S = 0 it is a plain register write,
x[15] receiving all 32 bits of the result and no other register and no bit of the status word changing; with S = 1 it is
rejected. -/
def Obligations.PcDestinationIsPlainWrite : Prop :=
  ∀ (i : Instr) (s : State), writesRd i.opcode = true → i.rd = pcReg → Passes i.cond s →
    (i.setFlags = false → ∃ t, exec i s = .next t ∧
      WritesOnly pcReg (aluResult i.opcode (s.reg i.rn) (resolve i.op2 s).value (s.flag .c)) s t ∧ t.cpsr = s.cpsr) ∧
    (i.setFlags = true → exec i s = .fault .illegalDestination)

/-- `wrote_pc` after an instruction that answers a next state is 1 exactly when the condition passed, the operation
writes Rd and Rd is 15, and then S is 0; and no instruction touches the calls still pending. `wrote_pc` is the spec's
derived output D12, and the list of calls is the model's (log 1). -/
def Obligations.WrotePcOutput : Prop :=
  ∀ (i : Instr) (s t : State), exec i s = .next t →
    (t.wrotePc = true ↔ (Passes i.cond s ∧ writesRd i.opcode = true ∧ i.rd = pcReg)) ∧
    (t.wrotePc = true → i.setFlags = false) ∧ t.input = s.input

/-- The outcomes of an instruction in their order: the reserved condition is IllegalCondition; a failed condition changes
nothing; S = 1 with Rd = 15 is IllegalDestination, for all 16 operations; anything else answers a next state. The order,
and the compares' place in the third case, are the spec's decision D16. -/
def Obligations.OutcomeOrder : Prop :=
  ∀ (i : Instr) (s : State),
    (i.cond = .reserved → exec i s = .fault .illegalCondition) ∧
    (FailsCond i.cond s → ∃ t, exec i s = .next t ∧ Unchanged s t) ∧
    (Passes i.cond s → PcWithS i.setFlags i.rd → exec i s = .fault .illegalDestination) ∧
    (Passes i.cond s → ¬ PcWithS i.setFlags i.rd → ∃ t, exec i s = .next t)

/-- An instruction has no outcome but a next state and the two error kinds, and each error kind does occur; every opcode
value names an operation of its own (60_exceptions.md section 1; that an error of the block is a fault of the model is
D17). -/
def Obligations.TwoErrorKinds : Prop :=
  (∀ (i : Instr) (s : State),
    (∃ t, exec i s = .next t) ∨ exec i s = .fault .illegalCondition ∨ exec i s = .fault .illegalDestination) ∧
  (∀ s : State, (∃ i, exec i s = .fault .illegalCondition) ∧ (∃ i, exec i s = .fault .illegalDestination)) ∧
  (∀ b : BitVec 4, opcodeCode (opcodeOfCode b) = b)

/-- Every word with bits 31:28 = 1111 executes as IllegalCondition, whatever its other bits and the flags: in the block,
which changes nothing, and as the instruction the model decodes when the word is of the class (30_encoding.md section 5;
that 1111 is the reserved encoding is D2, that an error changes nothing D17). -/
def Obligations.ReservedConditionRejected : Prop :=
  ∀ (w : Word) (s : State), w.extractLsb' 28 4 = 0xF →
    (∃ t, blockExecute (decodeFields w) s = (.illegalCondition, t) ∧ Unchanged s t) ∧
    (∀ i, decodeWord w = .ok i → exec i s = .fault .illegalCondition)

/-- An error status of the block leaves all 16 registers and all 32 bits of the status word as they were, and `wrote_pc`
0 (60_exceptions.md section 1; the spec's decisions D17 and, for `wrote_pc`, D12). -/
def Obligations.ErrorLeavesStateUnchanged : Prop :=
  ∀ (d : DecodedInstruction) (s t : State) (status : Status), blockExecute d s = (status, t) → status ≠ .ok →
    Unchanged s t

/-- The instructions' meanings refine the block: on a pending call whose word is of the class, the step is what
`execute(decode(word))` answers, its status read as an outcome. The meanings follow each instruction's own rule and
AddWithCarry, the block the operation table and the flag rules of the class. The pending call is the model's (log 1), the
class is D14, and reading an error status as a fault is D17 (60_exceptions.md section 7; log 6). -/
def Obligations.StepRefinesBlock : Prop :=
  ∀ (s : State) (c : HostCall) (rest : List HostCall), s.input = c :: rest → isDPClass c.word = true →
    ∃ r, blockStep s = some r ∧ step s = outcomeOf r

/-- A step is refused exactly when no call is pending or the next call's word is not of the class (the refusal of such a
word is the spec's decision D14; the refusal without a call is the model's, log 1). -/
def Obligations.RefusedExactlyOutsideTheClass : Prop :=
  ∀ s : State, (∃ r, step s = .refused r) ↔
    (s.input = [] ∨ ∃ c rest, s.input = c :: rest ∧ isDPClass c.word = false)

/-- What the host's writes between two steps do, in their order: a register write changes that register only, a status
write the whole status word, and the set or clear of a flag, Q included, that flag's bit and no other of the 32, bits 26:0
among them, and no register; all may be of any register, bit or flag (D24; the places of the flags are D3, the list of
writes log 1). -/
def Obligations.HostWritesBetweenSteps : Prop :=
  ∀ (ws : List HostWrite) (s : State),
    let before := applyHostWrites ws s
    (∀ r v, WritesOnly r v before (applyHostWrites (ws ++ [.reg r v]) s) ∧
      (applyHostWrites (ws ++ [.reg r v]) s).cpsr = before.cpsr) ∧
    (∀ v, (applyHostWrites (ws ++ [.status v]) s).cpsr = v ∧
      WritesNothing before (applyHostWrites (ws ++ [.status v]) s)) ∧
    (∀ f, WritesNothing before (applyHostWrites (ws ++ [.setFlag f]) s) ∧
      (applyHostWrites (ws ++ [.setFlag f]) s).cpsr = setFlag before.cpsr f ∧
      ∀ k, k < 32 →
        (applyHostWrites (ws ++ [.setFlag f]) s).cpsr.getLsbD k = (decide (k = flagPos f) || before.cpsr.getLsbD k)) ∧
    (∀ f, WritesNothing before (applyHostWrites (ws ++ [.clearFlag f]) s) ∧
      (applyHostWrites (ws ++ [.clearFlag f]) s).cpsr = clearFlag before.cpsr f ∧
      ∀ k, k < 32 →
        (applyHostWrites (ws ++ [.clearFlag f]) s).cpsr.getLsbD k = (!decide (k = flagPos f) && before.cpsr.getLsbD k))

/-- The invariant of a run is kept by every step: as long as the host leaves the reserved status bits alone and sends only
words of the class, status bits 27:0 stay what they are (10_state.md section 4; the bits' positions are D3, the host's
writes D24, the class D14, the list of calls log 1). -/
def Obligations.RunInvariantKept : Prop :=
  ∀ (reserved : BitVec 28) (s t : State), RunInvariant reserved s → step s = .next t → RunInvariant reserved t

/-- The invariant of a run holds at the start, for every value of the parameters INIT_REGS and INIT_STATUS (D18), so at
reset whatever values the model took for them (log 2). -/
def Obligations.RunInvariantAtStart : Prop :=
  ∀ (initRegs : Vector Word 16) (initStatus : Word),
    RunInvariant (initStatus.extractLsb' 0 28) (State.ofParams initRegs initStatus)

/-- A run whose host sends only words of the class, with whatever writes between its steps, is never refused while calls
are pending: every step of it gives a next state or one of the block's two errors (the class is D14, the host's writes are
D24, the list of pending calls is the model's, log 1). -/
def Obligations.RunNeverRefused : Prop :=
  ∀ (s : State) (k : Nat) (r : Refusal), (∀ c ∈ s.input, c.wordInClass = true) → k ≤ s.input.length →
    runSteps k s ≠ .refused r

/-- A register an instruction does not read cannot influence it: with another value there, the instruction has the same
fault or a next state that agrees on the status word, on `wrote_pc` and on every other register, and on that register too
when the instruction wrote it. Reads are Rn (but for MOV and MVN, D29) and operand 2's registers. -/
def Obligations.UnreadRegisterHasNoInfluence : Prop :=
  ∀ (i : Instr) (s : State) (q : RegId) (v : Word), q ∉ reads i →
    (∀ e, exec i s = .fault e → exec i (s.setReg q v) = .fault e) ∧
    (∀ t, exec i s = .next t → ∃ u, exec i (s.setReg q v) = .next u ∧
      (∀ r, r ≠ q → u.reg r = t.reg r) ∧ u.cpsr = t.cpsr ∧ u.wrotePc = t.wrotePc ∧
      (Passes i.cond s → writesRd i.opcode = true → i.rd = q → u.reg q = t.reg q))

/-- A step depends on the registers, the status word and the next call only: the previous `wrote_pc` and the later calls
change neither the outcome nor the next state's registers, status word and `wrote_pc` (the two ports are the model's,
log 1). -/
def Obligations.PortsHaveNoInfluence : Prop :=
  ∀ (s u : State) (c : HostCall) (rest later : List HostCall), s.input = c :: rest → u.input = c :: later →
    s.regs = u.regs → s.cpsr = u.cpsr →
    (∀ t, step s = .next t → step u = .next (t.setInput later)) ∧
    (∀ e, step s = .fault e → step u = .fault e) ∧ (∀ r, step s = .refused r → step u = .refused r)

/-- The shifter's carry-out has no effect but to become C in a logical operation with S = 1: two operands of equal value
give the same outcome in every additive and subtractive operation and in every logical one with S = 0; in a logical
operation with S = 1 they give outcomes that differ in C at most, and there, when it ran, C is the carry-out. -/
def Obligations.ShifterCarryOnlyInLogical : Prop :=
  ∀ (cond : Cond) (sf : Bool) (rn rd : RegId) (o p : Operand2) (s : State),
    ((resolve o s).value = (resolve p s).value →
      exec (.sub cond sf rn rd o) s = exec (.sub cond sf rn rd p) s ∧
      exec (.rsb cond sf rn rd o) s = exec (.rsb cond sf rn rd p) s ∧
      exec (.add cond sf rn rd o) s = exec (.add cond sf rn rd p) s ∧
      exec (.adc cond sf rn rd o) s = exec (.adc cond sf rn rd p) s ∧
      exec (.sbc cond sf rn rd o) s = exec (.sbc cond sf rn rd p) s ∧
      exec (.rsc cond sf rn rd o) s = exec (.rsc cond sf rn rd p) s ∧
      exec (.cmp cond rn rd o) s = exec (.cmp cond rn rd p) s ∧
      exec (.cmn cond rn rd o) s = exec (.cmn cond rn rd p) s ∧
      exec (.and cond false rn rd o) s = exec (.and cond false rn rd p) s ∧
      exec (.eor cond false rn rd o) s = exec (.eor cond false rn rd p) s ∧
      exec (.orr cond false rn rd o) s = exec (.orr cond false rn rd p) s ∧
      exec (.mov cond false rn rd o) s = exec (.mov cond false rn rd p) s ∧
      exec (.bic cond false rn rd o) s = exec (.bic cond false rn rd p) s ∧
      exec (.mvn cond false rn rd o) s = exec (.mvn cond false rn rd p) s ∧
      SameButCarry (exec (.and cond true rn rd o) s) (exec (.and cond true rn rd p) s) ∧
      SameButCarry (exec (.eor cond true rn rd o) s) (exec (.eor cond true rn rd p) s) ∧
      SameButCarry (exec (.orr cond true rn rd o) s) (exec (.orr cond true rn rd p) s) ∧
      SameButCarry (exec (.mov cond true rn rd o) s) (exec (.mov cond true rn rd p) s) ∧
      SameButCarry (exec (.bic cond true rn rd o) s) (exec (.bic cond true rn rd p) s) ∧
      SameButCarry (exec (.mvn cond true rn rd o) s) (exec (.mvn cond true rn rd p) s) ∧
      SameButCarry (exec (.tst cond rn rd o) s) (exec (.tst cond rn rd p) s) ∧
      SameButCarry (exec (.teq cond rn rd o) s) (exec (.teq cond rn rd p) s)) ∧
    (∀ (i : Instr) (t : State), opClass i.opcode = .logical → i.setFlags = true → Passes i.cond s →
      exec i s = .next t → t.flag .c = (resolve i.op2 s).carry)

/-- An ADDS that ran followed by an ADC or ADCS that ran is a 64-bit addition: the ADC sees the carry of the ADDS
(70_reset_and_hazards.md section 3, derived there). The high operands are read after the first instruction. -/
def Obligations.AddsThenAdcAddsWide : Prop :=
  ∀ (c1 c2 : Cond) (sf : Bool) (rnL rdL rnH rdH : RegId) (oL oH : Operand2) (s t u : State),
    Passes c1 s → exec (.add c1 true rnL rdL oL) s = .next t →
    Passes c2 t → exec (.adc c2 sf rnH rdH oH) t = .next u →
    (u.reg rdH).toNat * 2 ^ 32 + (t.reg rdL).toNat =
      (((t.reg rnH).toNat * 2 ^ 32 + (s.reg rnL).toNat)
        + ((resolve oH t).value.toNat * 2 ^ 32 + (resolve oL s).value.toNat)) % 2 ^ 64

/-- The state a host starts from holds the parameters INIT_REGS and INIT_STATUS, whatever they are (D18); that no step has
been taken and no call is pending is the model's choice (log 3, log 4), and so are the values reset takes (log 2), which
are not stated here. -/
def Obligations.StartHoldsTheParameters : Prop :=
  ∀ (initRegs : Vector Word 16) (initStatus : Word),
    let s := State.ofParams initRegs initStatus
    (∀ r : RegId, s.reg r = initRegs[r]) ∧ s.cpsr = initStatus ∧ s.wrotePc = false ∧ s.input = [] ∧
    ∃ regs status, State.reset = State.ofParams regs status
end

