-- ==== Sys2Proof/Laws/Arith.lean ====
section
/-! SUPPORT. AddWithCarry in each of the forms the operations use it (42_execute.md R88): the result as addition or
subtraction modulo 2^32, the carry as a comparison, the overflow as a sign rule and as the exact signed range. -/

namespace Sys2Proof.Machine

theorem toNat_not (y : Word) : (~~~y).toNat = 2 ^ 32 - 1 - y.toNat := BitVec.toNat_not

/-- The sign bit says whether the unsigned value reaches 2^31 (00_scope.md R11). -/
theorem signBit (x : Word) : x.getLsbD 31 = decide (2 ^ 31 ≤ x.toNat) := by
  have h := BitVec.msb_eq_decide x
  rw [BitVec.msb_eq_getLsbD_last] at h
  exact h

/-- The signed reading of a value (R11). -/
theorem toInt_eq (x : Word) : x.toInt = if 2 ^ 31 ≤ x.toNat then (x.toNat : Int) - 2 ^ 32 else (x.toNat : Int) := by
  rw [BitVec.toInt_eq_toNat_cond]
  split <;> split <;> omega

theorem addWithCarry_result (a b : Word) (c : Bool) :
    (addWithCarry a b c).result.toNat = (a.toNat + b.toNat + c.toNat) % 2 ^ 32 := by
  simp [addWithCarry]

theorem addWithCarry_carry (a b : Word) (c : Bool) :
    (addWithCarry a b c).carry = decide (2 ^ 32 ≤ a.toNat + b.toNat + c.toNat) := rfl

/-- Overflow says that the exact signed sum lies outside the signed range (R93). -/
theorem addWithCarry_overflow (a b : Word) (c : Bool) :
    (addWithCarry a b c).overflow = true ↔
      (a.toInt + b.toInt + c.toNat < -2 ^ 31 ∨ 2 ^ 31 ≤ a.toInt + b.toInt + c.toNat) := by
  have hr := addWithCarry_result a b c
  have ha := a.isLt
  have hb := b.isLt
  have hc : c.toNat ≤ 1 := Bool.toNat_le c
  have : (addWithCarry a b c).overflow =
      (a.getLsbD 31 == b.getLsbD 31 && (addWithCarry a b c).result.getLsbD 31 != a.getLsbD 31) := rfl
  rw [this, signBit, signBit, signBit, hr, toInt_eq, toInt_eq]
  generalize c.toNat = k at *
  generalize a.toNat = x at *
  generalize b.toNat = y at *
  by_cases h1 : 2 ^ 31 ≤ x <;> by_cases h2 : 2 ^ 31 ≤ y <;>
    by_cases h3 : 2 ^ 31 ≤ (x + y + k) % 2 ^ 32 <;> simp only [h1, h2, h3] <;> simp <;> omega

/-- The overflow in the sign rule's words for an addition (R93). -/
theorem addWithCarry_addOverflow (a b : Word) (c : Bool) :
    (addWithCarry a b c).overflow = addOverflows a b (addWithCarry a b c).result := rfl

/-- Addition with no carry-in. -/
theorem addWithCarry_add (a b : Word) : (addWithCarry a b false).result = a + b := by
  apply BitVec.eq_of_toNat_eq
  rw [addWithCarry_result]
  simp

theorem addWithCarry_adc (a b : Word) (c : Bool) :
    (addWithCarry a b c).result = a + b + bitWord c := by
  apply BitVec.eq_of_toNat_eq
  rw [addWithCarry_result]
  cases c <;> simp [bitWord, BitVec.toNat_add]

/-- Subtraction as addition of the complement and a carry-in of 1 (R88). -/
theorem addWithCarry_sub (m t : Word) : (addWithCarry m (~~~t) true).result = m - t := by
  apply BitVec.eq_of_toNat_eq
  have := t.isLt
  rw [addWithCarry_result, toNat_not, BitVec.toNat_sub, Bool.toNat_true]
  congr 1
  omega

/-- Subtraction with carry, the borrow-in being 1 − C (R88). -/
theorem addWithCarry_sbc (m t : Word) (c : Bool) :
    (addWithCarry m (~~~t) c).result = m - t - bitWord (!c) := by
  apply BitVec.eq_of_toNat_eq
  have := t.isLt
  cases c <;> rw [addWithCarry_result, toNat_not, BitVec.toNat_sub, BitVec.toNat_sub] <;> simp [bitWord] <;> omega

/-- The carry of a subtraction says that no borrow occurred (R94). -/
theorem addWithCarry_noBorrow (m t : Word) (c : Bool) :
    (addWithCarry m (~~~t) c).carry = noBorrow m t (!c) := by
  have := t.isLt
  rw [addWithCarry_carry, noBorrow, toNat_not]
  cases c <;> simp <;> omega

/-- The overflow of a subtraction in the sign rule's words (R95). -/
theorem addWithCarry_subOverflow (m t : Word) (c : Bool) :
    (addWithCarry m (~~~t) c).overflow = subOverflows m t (addWithCarry m (~~~t) c).result := by
  have h : (~~~t).getLsbD 31 = !t.getLsbD 31 := by simp
  simp only [subOverflows]
  change (m.getLsbD 31 == (~~~t).getLsbD 31 && (addWithCarry m (~~~t) c).result.getLsbD 31 != m.getLsbD 31) = _
  rw [h]
  cases m.getLsbD 31 <;> cases t.getLsbD 31 <;> cases (addWithCarry m (~~~t) c).result.getLsbD 31 <;> rfl

/-- The signed reading of a complement. -/
theorem toInt_not (t : Word) : (~~~t).toInt = -t.toInt - 1 := by
  have := t.isLt
  rw [toInt_eq, toInt_eq, toNat_not]
  split <;> split <;> omega

/-- Overflow of a subtraction says that the exact signed difference, less the borrow-in, lies outside the signed range
(R95). -/
theorem addWithCarry_subRange (m t : Word) (c : Bool) :
    (addWithCarry m (~~~t) c).overflow = true ↔
      (m.toInt - t.toInt - (!c).toNat < -2 ^ 31 ∨ 2 ^ 31 ≤ m.toInt - t.toInt - (!c).toNat) := by
  rw [addWithCarry_overflow, toInt_not]
  cases c <;> simp <;> omega

end Sys2Proof.Machine
end

