-- ==== Sys2Proof/Laws/Encoding.lean ====
section
/-! SUPPORT. The code tables are inverse to each other, and each field of an encoded word reads back as it was written
(30_encoding.md R42, R47, R52). -/

namespace Sys2Proof

@[simp] theorem condOfCode_condCode (c : Cond) : condOfCode (condCode c) = c := by cases c <;> rfl
@[simp] theorem opcodeOfCode_opcodeCode (o : Opcode) : opcodeOfCode (opcodeCode o) = o := by cases o <;> rfl
@[simp] theorem shiftOfCode_shiftCode (t : ShiftType) : shiftOfCode (shiftCode t) = t := by cases t <;> rfl
@[simp] theorem condCode_condOfCode (b : BitVec 4) : condCode (condOfCode b) = b := by revert b; decide
@[simp] theorem opcodeCode_opcodeOfCode (b : BitVec 4) : opcodeCode (opcodeOfCode b) = b := by revert b; decide
@[simp] theorem shiftCode_shiftOfCode (b : BitVec 2) : shiftCode (shiftOfCode b) = b := by revert b; decide
@[simp] theorem regOfBits_regBits (r : RegId) : regOfBits (regBits r) = r := by revert r; decide
@[simp] theorem regBits_regOfBits (b : BitVec 4) : regBits (regOfBits b) = b := by revert b; decide

/-- The bits of a word put together from its fields (R42). -/
theorem wordOfFields_bit (c : BitVec 4) (k : BitVec 2) (i : BitVec 1) (o : BitVec 4) (s : BitVec 1) (n d : BitVec 4)
    (p : BitVec 12) (j : Nat) :
    ((c ++ k ++ i ++ o ++ s ++ n ++ d ++ p : BitVec (4 + 2 + 1 + 4 + 1 + 4 + 4 + 12))).getLsbD j =
      if j < 12 then p.getLsbD j
      else if j < 16 then d.getLsbD (j - 12)
      else if j < 20 then n.getLsbD (j - 16)
      else if j < 21 then s.getLsbD (j - 20)
      else if j < 25 then o.getLsbD (j - 21)
      else if j < 26 then i.getLsbD (j - 25)
      else if j < 28 then k.getLsbD (j - 26)
      else c.getLsbD (j - 28) := by
  simp only [BitVec.getLsbD_append]
  repeat' split
  all_goals first
    | rfl
    | omega

/-- A field of an encoded word, bit by bit. -/
theorem field_bit (w : Word) (lo len j : Nat) : (field w lo len).getLsbD j = (decide (j < len) && w.getLsbD (lo + j)) := by
  simp [field]

/-- Bit j of an encoded word (R42, R52). -/
theorem encodeFields_bit (d : DecodedInstruction) (j : Nat) :
    (encodeFields d).getLsbD j =
      if j < 12 then (operand2Bits d.op2).getLsbD j
      else if j < 16 then (regBits d.rd).getLsbD (j - 12)
      else if j < 20 then (regBits d.rn).getLsbD (j - 16)
      else if j < 21 then (BitVec.ofBool d.setFlags).getLsbD (j - 20)
      else if j < 25 then (opcodeCode d.opcode).getLsbD (j - 21)
      else if j < 26 then (BitVec.ofBool d.op2.isImm).getLsbD (j - 25)
      else if j < 28 then (0#2).getLsbD (j - 26)
      else (condCode d.cond).getLsbD (j - 28) :=
  wordOfFields_bit _ _ _ _ _ _ _ _ j

theorem field_encode_cond (d : DecodedInstruction) : field (encodeFields d) 28 4 = condCode d.cond := by
  apply BitVec.eq_of_getLsbD_eq
  intro j hj
  rw [field_bit, encodeFields_bit]
  repeat' split
  all_goals first
    | omega
    | simp [hj]

theorem field_encode_opcode (d : DecodedInstruction) : field (encodeFields d) 21 4 = opcodeCode d.opcode := by
  apply BitVec.eq_of_getLsbD_eq
  intro j hj
  rw [field_bit, encodeFields_bit]
  repeat' split
  all_goals first
    | omega
    | simp [hj]

theorem field_encode_class (d : DecodedInstruction) : field (encodeFields d) 26 2 = 0#2 := by
  apply BitVec.eq_of_getLsbD_eq
  intro j hj
  rw [field_bit, encodeFields_bit]
  repeat' split
  all_goals first
    | omega
    | simp

theorem field_encode_rn (d : DecodedInstruction) : field (encodeFields d) 16 4 = regBits d.rn := by
  apply BitVec.eq_of_getLsbD_eq
  intro j hj
  rw [field_bit, encodeFields_bit]
  repeat' split
  all_goals first
    | omega
    | simp [hj]

theorem field_encode_rd (d : DecodedInstruction) : field (encodeFields d) 12 4 = regBits d.rd := by
  apply BitVec.eq_of_getLsbD_eq
  intro j hj
  rw [field_bit, encodeFields_bit]
  repeat' split
  all_goals first
    | omega
    | simp [hj]

theorem bit_encode_setFlags (d : DecodedInstruction) : (encodeFields d).getLsbD 20 = d.setFlags := by
  rw [encodeFields_bit]; cases d.setFlags <;> rfl

theorem bit_encode_isImm (d : DecodedInstruction) : (encodeFields d).getLsbD 25 = d.op2.isImm := by
  rw [encodeFields_bit]; cases d.op2.isImm <;> rfl

/-- A field inside bits 11:0 is that field of the operand-2 bits. -/
theorem field_encode_op2 (d : DecodedInstruction) (lo len : Nat) (h : lo + len ≤ 12) :
    field (encodeFields d) lo len = (operand2Bits d.op2).extractLsb' lo len := by
  apply BitVec.eq_of_getLsbD_eq
  intro j hj
  rw [field_bit, encodeFields_bit, if_pos (by omega)]
  simp

theorem bit_encode_op2 (d : DecodedInstruction) (j : Nat) (h : j < 12) :
    (encodeFields d).getLsbD j = (operand2Bits d.op2).getLsbD j := by
  rw [encodeFields_bit, if_pos h]

/-- Bit 4 tells the two register sub-forms apart, and bit 7 of the register-amount form is 0 (R45, R52). -/
theorem operand2Bits_regImm_bit4 (rm : RegId) (t : ShiftType) (n : Nat) :
    (operand2Bits (.regImm rm t n)).getLsbD 4 = false := by
  simp only [operand2Bits, BitVec.getLsbD_append]; rfl

theorem operand2Bits_regReg_bit4 (rm : RegId) (t : ShiftType) (rs : RegId) :
    (operand2Bits (.regReg rm t rs)).getLsbD 4 = true := by
  simp only [operand2Bits, BitVec.getLsbD_append]; rfl

theorem operand2Bits_regReg_bit7 (rm : RegId) (t : ShiftType) (rs : RegId) :
    (operand2Bits (.regReg rm t rs)).getLsbD 7 = false := by
  simp only [operand2Bits, BitVec.getLsbD_append]; rfl

/-- The class predicate and the decoder's rejection agree (R55). -/
theorem classError_none (w : Word) : classError w = none ↔ isDPClass w = true := by
  simp only [classError, isDPClass]
  by_cases h1 : field w 26 2 = 0#2
  · rcases hb : (!w.getLsbD 25 && w.getLsbD 7 && w.getLsbD 4) with _ | _ <;>
      rcases hc : (field w 23 2 == 2 && !w.getLsbD 20) with _ | _ <;> simp_all
  · simp [h1]

/-- A word of the class decodes to the instruction of its fields. -/
theorem decodeWord_class {w : Word} (h : isDPClass w = true) : decodeWord w = .ok (instrOfDecoded (decodeFields w)) := by
  simp [decodeWord, (classError_none w).2 h]

/-- The four bytes of a word put together again give the word (20_memory.md R34). -/
theorem bytes_of_word (w : Word) : (field w 24 8 ++ field w 16 8 ++ field w 8 8 ++ field w 0 8 : Word) = w := by
  apply BitVec.eq_of_getLsbD_eq
  intro j hj
  simp only [BitVec.getLsbD_append, field_bit]
  repeat' split
  all_goals
    rw [decide_eq_true (by omega)]
    simp only [Bool.true_and]
    congr 1
    omega

/-- Decoding a word's bytes is decoding the word. -/
theorem decode_wordBytes (w : Word) (rest : List Byte) :
    decode (wordBytes w ++ rest) = (match decodeWord w with | .ok i => .ok (i, rest) | .error e => .error e) := by
  cases h : decodeWord w <;> simp only [wordBytes, List.cons_append, List.nil_append, decode, bytes_of_word, h]

end Sys2Proof
end

