-- ==== Sys2Proof/Laws/State.lean ====
section
/-! SUPPORT. One lemma per field per update of the state, and the laws of the register file. -/

namespace Sys2Proof.Machine

@[simp] theorem setReg_regs (s : State) (r : RegId) (v : Word) : (s.setReg r v).regs = s.regs.set r v := rfl
@[simp] theorem setReg_cpsr (s : State) (r : RegId) (v : Word) : (s.setReg r v).cpsr = s.cpsr := rfl
@[simp] theorem setReg_wrotePc (s : State) (r : RegId) (v : Word) : (s.setReg r v).wrotePc = s.wrotePc := rfl
@[simp] theorem setReg_input (s : State) (r : RegId) (v : Word) : (s.setReg r v).input = s.input := rfl

@[simp] theorem setCpsr_cpsr (s : State) (w : Word) : (s.setCpsr w).cpsr = w := rfl
@[simp] theorem setCpsr_wrotePc (s : State) (w : Word) : (s.setCpsr w).wrotePc = s.wrotePc := rfl
@[simp] theorem setCpsr_input (s : State) (w : Word) : (s.setCpsr w).input = s.input := rfl
@[simp] theorem setCpsr_reg (s : State) (w : Word) (r : RegId) : (s.setCpsr w).reg r = s.reg r := rfl

@[simp] theorem setWrotePc_cpsr (s : State) (b : Bool) : (s.setWrotePc b).cpsr = s.cpsr := rfl
@[simp] theorem setWrotePc_wrotePc (s : State) (b : Bool) : (s.setWrotePc b).wrotePc = b := rfl
@[simp] theorem setWrotePc_input (s : State) (b : Bool) : (s.setWrotePc b).input = s.input := rfl
@[simp] theorem setWrotePc_reg (s : State) (b : Bool) (r : RegId) : (s.setWrotePc b).reg r = s.reg r := rfl

@[simp] theorem setInput_cpsr (s : State) (cs : List HostCall) : (s.setInput cs).cpsr = s.cpsr := rfl
@[simp] theorem setInput_wrotePc (s : State) (cs : List HostCall) : (s.setInput cs).wrotePc = s.wrotePc := rfl
@[simp] theorem setInput_input (s : State) (cs : List HostCall) : (s.setInput cs).input = cs := rfl
@[simp] theorem setInput_reg (s : State) (cs : List HostCall) (r : RegId) : (s.setInput cs).reg r = s.reg r := rfl

/-- A register reads the last value written to it, and a write leaves every other register alone (10_state.md R16). -/
theorem setReg_reg (s : State) (r q : RegId) (v : Word) :
    (s.setReg r v).reg q = if q = r then v else s.reg q := by
  simp [State.reg, State.setReg, Vector.getElem_set, Fin.ext_iff, eq_comm]

@[simp] theorem setReg_reg_same (s : State) (r : RegId) (v : Word) : (s.setReg r v).reg r = v := by
  simp [setReg_reg]

@[simp] theorem setReg_reg_ne (s : State) {r q : RegId} (v : Word) (h : q ≠ r) : (s.setReg r v).reg q = s.reg q := by
  simp [setReg_reg, h]

/-- Two states with the same registers, status word and ports are equal. -/
theorem state_ext {s t : State} (hr : ∀ r, s.reg r = t.reg r) (hc : s.cpsr = t.cpsr) (hw : s.wrotePc = t.wrotePc)
    (hi : s.input = t.input) : s = t := by
  cases s; cases t
  simp only [State.mk.injEq]
  refine ⟨Vector.ext fun j hj => ?_, hc, hw, hi⟩
  simpa [State.reg] using hr ⟨j, hj⟩

/-- The flags of a state are read from its status word only. -/
theorem flag_congr {s t : State} (h : s.cpsr = t.cpsr) (f : Flag) : s.flag f = t.flag f := by
  simp [State.flag, h]

@[simp] theorem setReg_flag (s : State) (r : RegId) (v : Word) (f : Flag) : (s.setReg r v).flag f = s.flag f := rfl
@[simp] theorem setCpsr_flag (s : State) (w : Word) (f : Flag) : (s.setCpsr w).flag f = isSet w f := rfl
@[simp] theorem setWrotePc_flag (s : State) (b : Bool) (f : Flag) : (s.setWrotePc b).flag f = s.flag f := rfl
@[simp] theorem setInput_flag (s : State) (cs : List HostCall) (f : Flag) : (s.setInput cs).flag f = s.flag f := rfl

/-- The condition depends on the status word only (40_condition.md R60). -/
theorem evaluate_congr {s t : State} (h : s.cpsr = t.cpsr) (cond : Cond) : s.evaluate cond = t.evaluate cond := by
  simp [State.evaluate, State.flag, h]

end Sys2Proof.Machine
end

