-- ==== Sys2Proof/Laws/Flags.lean ====
section
/-! SUPPORT. The status register's contract bit by bit, and the flag generator's effect on each flag. -/

namespace Sys2Proof.Machine

/-- No two flags share a bit. -/
theorem flagPos_inj {f g : Flag} : flagPos f = flagPos g ↔ f = g := by
  cases f <;> cases g <;> decide

theorem flagPos_lt (f : Flag) : flagPos f < 32 := by cases f <;> decide

/-- A mask has exactly its flag's bit (10_state.md R25). -/
theorem flagMask_bit (f : Flag) (k : Nat) : (flagMask f).getLsbD k = decide (k = flagPos f) := by
  have hone : ∀ j, (1#32).getLsbD j = decide (j = 0) := fun j => by
    cases j <;> simp
  have hp := flagPos_lt f
  simp only [flagMask, BitVec.getLsbD_shiftLeft, hone]
  rw [Bool.eq_iff_iff]
  simp
  omega

/-- `set(f)` makes the bit of f 1 and leaves every other bit alone (R25). -/
theorem setFlag_bit (w : Word) (f : Flag) (k : Nat) :
    (setFlag w f).getLsbD k = (decide (k = flagPos f) || w.getLsbD k) := by
  simp only [setFlag, BitVec.getLsbD_or, flagMask_bit, Bool.or_comm]

/-- `clear(f)` makes the bit of f 0 and leaves every other bit alone (R25). -/
theorem clearFlag_bit (w : Word) (f : Flag) (k : Nat) :
    (clearFlag w f).getLsbD k = (!decide (k = flagPos f) && w.getLsbD k) := by
  have hlt : w.getLsbD k = true → k < 32 := BitVec.lt_of_getLsbD
  simp only [clearFlag, BitVec.getLsbD_and, BitVec.getLsbD_not, flagMask_bit]
  rcases hw : w.getLsbD k with _ | _
  · simp
  · simp [hlt hw]

/-- `write(f, b)` changes the bit of f and no other (R25). -/
theorem writeFlag_bit (w : Word) (f : Flag) (b : Bool) (k : Nat) :
    (writeFlag w f b).getLsbD k = if k = flagPos f then b else w.getLsbD k := by
  cases b <;> simp only [writeFlag, if_true, if_false, Bool.false_eq_true, setFlag_bit, clearFlag_bit] <;>
    split <;> rename_i h <;> simp only [h, decide_true, decide_false, Bool.true_or, Bool.false_or, Bool.not_true,
      Bool.not_false, Bool.true_and, Bool.false_and]

/-- A flag reads the last value written to it, and a write leaves every other flag alone (R25). -/
theorem isSet_writeFlag (w : Word) (f g : Flag) (b : Bool) :
    isSet (writeFlag w f b) g = if g = f then b else isSet w g := by
  simp only [isSet, writeFlag_bit, flagPos_inj]

/-- Each flag after the logical flag rule (42_execute.md R90, R91). -/
theorem isSet_logicalStatus (res : Word) (carry : Bool) (w : Word) (f : Flag) :
    isSet (logicalStatus true res carry w) f =
      match f with
      | .n => res.getLsbD 31
      | .z => res == 0
      | .c => carry
      | .v => isSet w .v
      | .q => isSet w .q := by
  cases f <;> simp [logicalStatus, writeNZ, isSet_writeFlag]

/-- Each flag after the arithmetic flag rule (42_execute.md R90, R92 to R95). -/
theorem isSet_arithStatus (sum : Sum) (w : Word) (f : Flag) :
    isSet (arithStatus true sum w) f =
      match f with
      | .n => sum.result.getLsbD 31
      | .z => sum.result == 0
      | .c => sum.carry
      | .v => sum.overflow
      | .q => isSet w .q := by
  cases f <;> simp [arithStatus, writeNZ, isSet_writeFlag]

/-- A status bit that belongs to none of N, Z, C and V is not theirs. -/
theorem not_isNZCVBit {k : Nat} (h : ¬ isNZCVBit k) :
    k ≠ flagPos .n ∧ k ≠ flagPos .z ∧ k ≠ flagPos .c ∧ k ≠ flagPos .v := by
  simpa [isNZCVBit, not_or] using h

/-- The logical flag rule keeps every bit outside N, Z, C and V (10_state.md R24). -/
theorem logicalStatus_reserved (sf : Bool) (res : Word) (carry : Bool) (w : Word) (k : Nat)
    (h : ¬ isNZCVBit k) : (logicalStatus sf res carry w).getLsbD k = w.getLsbD k := by
  obtain ⟨hn, hz, hc, -⟩ := not_isNZCVBit h
  cases sf <;> simp only [logicalStatus, writeNZ, writeFlag_bit, hn, hz, hc, if_true, if_false, Bool.false_eq_true]

/-- The shifter carry reaches no bit of the status word but C (41_shifter.md R81). -/
theorem logicalStatus_bit_of_ne_c (sf : Bool) (res : Word) (c d : Bool) (w : Word) (k : Nat) (h : k ≠ flagPos .c) :
    (logicalStatus sf res c w).getLsbD k = (logicalStatus sf res d w).getLsbD k := by
  cases sf <;> simp [logicalStatus, writeFlag_bit, h]

/-- The arithmetic flag rule keeps every bit outside N, Z, C and V (10_state.md R24). -/
theorem arithStatus_reserved (sf : Bool) (sum : Sum) (w : Word) (k : Nat)
    (h : ¬ isNZCVBit k) : (arithStatus sf sum w).getLsbD k = w.getLsbD k := by
  obtain ⟨hn, hz, hc, hv⟩ := not_isNZCVBit h
  cases sf <;> simp only [arithStatus, writeNZ, writeFlag_bit, hn, hz, hc, hv, if_true, if_false, Bool.false_eq_true]

end Sys2Proof.Machine
end

