-- ==== Sys2Proof/Laws/Ops.lean ====
section
/-! SUPPORT. What each shared operation can do, said once: the gate, the four shapes of an instruction, taking a call. -/

namespace Sys2Proof.Machine

/-- The four outcomes of the gate, in the order of 60_exceptions.md R119. -/
theorem gate_cases (cond : Cond) (sf : Bool) (rd : RegId) (s t : State) :
    (s.evaluate cond = none ∧ gate cond sf rd s t = .fault .illegalCondition) ∨
    (FailsCond cond s ∧ gate cond sf rd s t = .next (s.setWrotePc false)) ∨
    (Passes cond s ∧ PcWithS sf rd ∧ gate cond sf rd s t = .fault .illegalDestination) ∨
    (Passes cond s ∧ ¬ PcWithS sf rd ∧ gate cond sf rd s t = .next t) := by
  rcases h : s.evaluate cond with _ | _ | _
  · simp [gate, h, raise]
  · simp [gate, h, FailsCond]
  · by_cases hp : sf = true ∧ rd = pcReg
    · simp [gate, h, hp, raise, Passes, PcWithS]
    · have hb : (sf && rd == pcReg) = false := by simpa using hp
      exact .inr (.inr (.inr ⟨h, hp, by simp [gate, h, hb]⟩))

/-- A condition that fails does not pass. -/
theorem FailsCond.not_passes {cond : Cond} {s : State} (h : FailsCond cond s) : ¬ Passes cond s := by
  intro hp
  simp [Passes, show s.evaluate cond = some false from h] at hp

/-- An instruction whose condition passes, and which is not S = 1 with Rd = 15, has its own effect (42_execute.md R82). -/
theorem gate_passes {cond : Cond} {sf : Bool} {rd : RegId} {s : State} (hp : Passes cond s) (hd : ¬ PcWithS sf rd)
    (t : State) : gate cond sf rd s t = .next t := by
  rcases gate_cases cond sf rd s t with ⟨h, -⟩ | ⟨h, -⟩ | ⟨-, h, -⟩ | ⟨-, -, h⟩
  · simp [Passes, h] at hp
  · simp [Passes, h] at hp
  · exact absurd h hd
  · exact h

/-- If the gate answers a next state, the condition failed and nothing changed, or the effect happened. -/
theorem gate_next {cond : Cond} {sf : Bool} {rd : RegId} {s t u : State} (h : gate cond sf rd s t = .next u) :
    (FailsCond cond s ∧ u = s.setWrotePc false) ∨ (Passes cond s ∧ ¬ PcWithS sf rd ∧ u = t) := by
  rcases gate_cases cond sf rd s t with ⟨-, h'⟩ | ⟨hf, h'⟩ | ⟨-, -, h'⟩ | ⟨hp, hd, h'⟩ <;> rw [h'] at h
  · cases h
  · cases h; exact .inl ⟨hf, rfl⟩
  · cases h
  · cases h; exact .inr ⟨hp, hd, rfl⟩

/-- The gate never refuses (60_exceptions.md R115). -/
theorem gate_not_refused (cond : Cond) (sf : Bool) (rd : RegId) (s t : State) (r : Refusal) :
    gate cond sf rd s t ≠ .refused r := by
  rcases gate_cases cond sf rd s t with ⟨-, h⟩ | ⟨-, h⟩ | ⟨-, -, h⟩ | ⟨-, -, h⟩ <;> simp [h]

/-- Around two effects that differ in C at most, the gate gives outcomes that differ in C at most. -/
theorem gate_sameButCarry (cond : Cond) (sf : Bool) (rd : RegId) (s : State) {t u : State}
    (h : SameButCarry (.next t) (.next u)) : SameButCarry (gate cond sf rd s t) (gate cond sf rd s u) := by
  unfold gate
  rcases s.evaluate cond with _ | _ | _
  · rfl
  · exact ⟨fun _ => rfl, rfl, rfl, fun _ _ _ => rfl⟩
  · simp only
    split
    · rfl
    · exact h

@[simp] theorem commitRd_cpsr (rd : RegId) (res st : Word) (s : State) : (commitRd rd res st s).cpsr = st := rfl
@[simp] theorem commitRd_input (rd : RegId) (res st : Word) (s : State) : (commitRd rd res st s).input = s.input := rfl
@[simp] theorem commitRd_wrotePc (rd : RegId) (res st : Word) (s : State) :
    (commitRd rd res st s).wrotePc = (rd == pcReg) := rfl
@[simp] theorem commitRd_flag (rd : RegId) (res st : Word) (s : State) (f : Flag) :
    (commitRd rd res st s).flag f = isSet st f := rfl

/-- Committing writes Rd and no other register (42_execute.md R96). -/
theorem commitRd_reg (rd : RegId) (res st : Word) (s : State) (q : RegId) :
    (commitRd rd res st s).reg q = if q = rd then res else s.reg q := by
  simp [commitRd, setReg_reg]

@[simp] theorem commitStatus_cpsr (st : Word) (s : State) : (commitStatus st s).cpsr = st := rfl
@[simp] theorem commitStatus_input (st : Word) (s : State) : (commitStatus st s).input = s.input := rfl
@[simp] theorem commitStatus_wrotePc (st : Word) (s : State) : (commitStatus st s).wrotePc = false := rfl
@[simp] theorem commitStatus_reg (st : Word) (s : State) (r : RegId) : (commitStatus st s).reg r = s.reg r := rfl
@[simp] theorem commitStatus_flag (st : Word) (s : State) (f : Flag) : (commitStatus st s).flag f = isSet st f := rfl

/-- A committed result has the register frame of an instruction that writes Rd (R96). -/
theorem writesOnly_commitRd (rd : RegId) (res st : Word) (s : State) : WritesOnly rd res s (commitRd rd res st s) :=
  ⟨by simp [commitRd_reg], fun r hr => by simp [commitRd_reg, hr]⟩

/-- The flags of a logical result (42_execute.md R89 to R91). -/
theorem statusAfter_logical (sf : Bool) (res : Word) (carry : Bool) (s t : State)
    (h : t.cpsr = logicalStatus sf res carry s.cpsr) :
    StatusAfter sf s t (res.getLsbD 31) (res == 0#32) carry (s.flag .v) := by
  refine ⟨fun k _ hb => by rw [h, logicalStatus_reserved _ _ _ _ _ hb], ?_, ?_⟩ <;> rintro rfl
  · simp [FlagsAre, State.flag, h, isSet_logicalStatus]
  · simpa [logicalStatus] using h

/-- The flags of an arithmetic result (42_execute.md R89, R90, R92 to R95). -/
theorem statusAfter_arith (sf : Bool) (sum : Sum) (s t : State) (h : t.cpsr = arithStatus sf sum s.cpsr) :
    StatusAfter sf s t (sum.result.getLsbD 31) (sum.result == 0#32) sum.carry sum.overflow := by
  refine ⟨fun k _ hb => by rw [h, arithStatus_reserved _ _ _ _ hb], ?_, ?_⟩ <;> rintro rfl
  · simp [FlagsAre, State.flag, h, isSet_arithStatus]
  · simpa [arithStatus] using h

/-- A host write changes a register or the status word, and never the ports (60_exceptions.md R126). -/
@[simp] theorem applyHostWrite_input (s : State) (w : HostWrite) : (applyHostWrite s w).input = s.input := by
  cases w <;> rfl

@[simp] theorem applyHostWrites_nil (s : State) : applyHostWrites [] s = s := rfl

@[simp] theorem applyHostWrites_cons (w : HostWrite) (ws : List HostWrite) (s : State) :
    applyHostWrites (w :: ws) s = applyHostWrites ws (applyHostWrite s w) := rfl

@[simp] theorem applyHostWrites_append (ws vs : List HostWrite) (s : State) :
    applyHostWrites (ws ++ vs) s = applyHostWrites vs (applyHostWrites ws s) := by
  simp [applyHostWrites]

/-- The host's writes never touch the calls still pending. -/
@[simp] theorem applyHostWrites_input (ws : List HostWrite) (s : State) : (applyHostWrites ws s).input = s.input := by
  induction ws generalizing s with
  | nil => rfl
  | cons w ws ih => simp [ih]

theorem takeCall_nil {s : State} (h : s.input = []) : takeCall s = none := by simp [takeCall, h]

theorem takeCall_cons {s : State} {c : HostCall} {rest : List HostCall} (h : s.input = c :: rest) :
    takeCall s = some (c.word, stateForCall c rest s) := by simp [takeCall, h, stateForCall]

end Sys2Proof.Machine
end

