-- ==== Sys2Proof/Laws/Shapes.lean ====
section
/-! SUPPORT. What an instruction of each of the four shapes does when it answers a next state, and that it answers one
when its condition passes and it is not S = 1 with Rd = 15 (42_execute.md R82, R96). -/

namespace Sys2Proof.Machine

/-- The effect of an operation that writes Rd. -/
def RdEffect (sf : Bool) (rd : RegId) (res : Word) (c v : Bool) (s t : State) : Prop :=
  WritesOnly rd res s t ∧ StatusAfter sf s t (res.getLsbD 31) (res == 0#32) c v ∧
    t.wrotePc = (rd == pcReg) ∧ t.input = s.input

/-- The effect of a test or comparison. -/
def TestEffect (res : Word) (c v : Bool) (s t : State) : Prop :=
  WritesNothing s t ∧ StatusAfter true s t (res.getLsbD 31) (res == 0#32) c v ∧
    t.wrotePc = false ∧ t.input = s.input

variable {cond : Cond} {sf : Bool} {rn rd : RegId} {op2 : Operand2} {s t : State}

theorem logicalToRd_completes (f : Word → Word → Word) (hp : Passes cond s) (hd : ¬ PcWithS sf rd) :
    ∃ t, logicalToRd f cond sf rn rd op2 s = .next t ∧
      RdEffect sf rd (f (s.reg rn) (resolve op2 s).value) (resolve op2 s).carry (s.flag .v) s t :=
  ⟨_, gate_passes hp hd _, writesOnly_commitRd _ _ _ _, statusAfter_logical _ _ _ _ _ rfl, rfl, rfl⟩

theorem arithToRd_completes (f : Word → Word → Bool → Sum) (hp : Passes cond s) (hd : ¬ PcWithS sf rd) :
    ∃ t, arithToRd f cond sf rn rd op2 s = .next t ∧
      let sum := f (s.reg rn) (resolve op2 s).value (s.flag .c)
      RdEffect sf rd sum.result sum.carry sum.overflow s t :=
  ⟨_, gate_passes hp hd _, writesOnly_commitRd _ _ _ _, statusAfter_arith _ _ _ _ rfl, rfl, rfl⟩

theorem logicalTest_completes (f : Word → Word → Word) (hp : Passes cond s) (hd : rd ≠ pcReg) :
    ∃ t, logicalTest f cond rn rd op2 s = .next t ∧
      TestEffect (f (s.reg rn) (resolve op2 s).value) (resolve op2 s).carry (s.flag .v) s t :=
  ⟨_, gate_passes hp (fun h => hd h.2) _, fun _ => rfl, statusAfter_logical _ _ _ _ _ rfl, rfl, rfl⟩

theorem arithTest_completes (f : Word → Word → Bool → Sum) (hp : Passes cond s) (hd : rd ≠ pcReg) :
    ∃ t, arithTest f cond rn rd op2 s = .next t ∧
      let sum := f (s.reg rn) (resolve op2 s).value (s.flag .c)
      TestEffect sum.result sum.carry sum.overflow s t :=
  ⟨_, gate_passes hp (fun h => hd h.2) _, fun _ => rfl, statusAfter_arith _ _ _ _ rfl, rfl, rfl⟩

theorem logicalToRd_next {f : Word → Word → Word} (h : logicalToRd f cond sf rn rd op2 s = .next t) :
    (FailsCond cond s ∧ t = s.setWrotePc false) ∨
    (Passes cond s ∧ ¬ PcWithS sf rd ∧
      RdEffect sf rd (f (s.reg rn) (resolve op2 s).value) (resolve op2 s).carry (s.flag .v) s t) := by
  rcases gate_next h with hf | ⟨hp, hd, rfl⟩
  · exact .inl hf
  · exact .inr ⟨hp, hd, writesOnly_commitRd _ _ _ _, statusAfter_logical _ _ _ _ _ rfl, rfl, rfl⟩

theorem arithToRd_next {f : Word → Word → Bool → Sum} (h : arithToRd f cond sf rn rd op2 s = .next t) :
    (FailsCond cond s ∧ t = s.setWrotePc false) ∨
    (Passes cond s ∧ ¬ PcWithS sf rd ∧
      let sum := f (s.reg rn) (resolve op2 s).value (s.flag .c)
      RdEffect sf rd sum.result sum.carry sum.overflow s t) := by
  rcases gate_next h with hf | ⟨hp, hd, rfl⟩
  · exact .inl hf
  · exact .inr ⟨hp, hd, writesOnly_commitRd _ _ _ _, statusAfter_arith _ _ _ _ rfl, rfl, rfl⟩

theorem logicalTest_next {f : Word → Word → Word} (h : logicalTest f cond rn rd op2 s = .next t) :
    (FailsCond cond s ∧ t = s.setWrotePc false) ∨
    (Passes cond s ∧ ¬ PcWithS true rd ∧
      TestEffect (f (s.reg rn) (resolve op2 s).value) (resolve op2 s).carry (s.flag .v) s t) := by
  rcases gate_next h with hf | ⟨hp, hd, rfl⟩
  · exact .inl hf
  · exact .inr ⟨hp, hd, fun _ => rfl, statusAfter_logical _ _ _ _ _ rfl, rfl, rfl⟩

theorem arithTest_next {f : Word → Word → Bool → Sum} (h : arithTest f cond rn rd op2 s = .next t) :
    (FailsCond cond s ∧ t = s.setWrotePc false) ∨
    (Passes cond s ∧ ¬ PcWithS true rd ∧
      let sum := f (s.reg rn) (resolve op2 s).value (s.flag .c)
      TestEffect sum.result sum.carry sum.overflow s t) := by
  rcases gate_next h with hf | ⟨hp, hd, rfl⟩
  · exact .inl hf
  · exact .inr ⟨hp, hd, fun _ => rfl, statusAfter_arith _ _ _ _ rfl, rfl, rfl⟩

/-- Operands of equal value give a logical operation outcomes that differ in C at most (41_shifter.md R81). -/
theorem logicalToRd_sameButCarry (f : Word → Word → Word) (cond : Cond) (sf : Bool) (rn rd : RegId) {o p : Operand2}
    {s : State} (h : (resolve o s).value = (resolve p s).value) :
    SameButCarry (logicalToRd f cond sf rn rd o s) (logicalToRd f cond sf rn rd p s) := by
  refine gate_sameButCarry _ _ _ _ ⟨fun q => ?_, rfl, rfl, fun k _ hk => ?_⟩
  · simp [commitRd_reg, h]
  · rw [commitRd_cpsr, commitRd_cpsr, h]
    exact logicalStatus_bit_of_ne_c _ _ _ _ _ _ hk

theorem logicalTest_sameButCarry (f : Word → Word → Word) (cond : Cond) (rn rd : RegId) {o p : Operand2} {s : State}
    (h : (resolve o s).value = (resolve p s).value) :
    SameButCarry (logicalTest f cond rn rd o s) (logicalTest f cond rn rd p s) := by
  refine gate_sameButCarry _ _ _ _ ⟨fun _ => rfl, rfl, rfl, fun k _ hk => ?_⟩
  rw [commitStatus_cpsr, commitStatus_cpsr, h]
  exact logicalStatus_bit_of_ne_c _ _ _ _ _ _ hk

end Sys2Proof.Machine
end

