-- ==== Sys2Proof/Laws/Exec.lean ====
section
/-! SUPPORT. The instructions' meanings and the block's own rules meet: an instruction is the gate around the block's
effect of its fields, and what that effect does to each part of the state. -/

namespace Sys2Proof.Machine

/-- The block's effect of a logical operation that writes Rd (42_execute.md R87, R91). -/
theorem blockEffect_logicalRd (d : DecodedInstruction) (s : State) (hc : opClass d.opcode = .logical)
    (hw : writesRd d.opcode = true) :
    let res := aluResult d.opcode (s.reg d.rn) (resolve d.op2 s).value (s.flag .c)
    blockEffect d s = commitRd d.rd res (logicalStatus d.setFlags res (resolve d.op2 s).carry s.cpsr) s := by
  have hcarry : ∀ x y c k, aluCarry d.opcode x y c k = k := by
    revert hc; cases d.opcode <;> intro h <;> first | exact fun _ _ _ _ => rfl | cases h
  simp only [blockEffect, hw, if_true, Bool.true_and, blockStatus, hc, hcarry, commitRd, logicalStatus]
  rfl

/-- The block's effect of TST and TEQ. -/
theorem blockEffect_logicalTest (d : DecodedInstruction) (s : State) (hc : opClass d.opcode = .logical)
    (hw : writesRd d.opcode = false) :
    let res := aluResult d.opcode (s.reg d.rn) (resolve d.op2 s).value (s.flag .c)
    blockEffect d s = commitStatus (logicalStatus d.setFlags res (resolve d.op2 s).carry s.cpsr) s := by
  have hcarry : ∀ x y c k, aluCarry d.opcode x y c k = k := by
    revert hc; cases d.opcode <;> intro h <;> first | exact fun _ _ _ _ => rfl | cases h
  simp only [blockEffect, hw, Bool.false_and, blockStatus, hc, hcarry, commitStatus, logicalStatus,
    Bool.false_eq_true, if_false]

/-- The block's effect of an arithmetic operation, for a sum whose three parts are the block's (42_execute.md R88). -/
theorem blockEffect_arith (d : DecodedInstruction) (s : State) (sum : Sum) (ho : opClass d.opcode ≠ .logical)
    (hr : sum.result = aluResult d.opcode (s.reg d.rn) (resolve d.op2 s).value (s.flag .c))
    (hc : sum.carry = aluCarry d.opcode (s.reg d.rn) (resolve d.op2 s).value (s.flag .c) (resolve d.op2 s).carry)
    (hv : sum.overflow = aluOverflow d.opcode (s.reg d.rn) (resolve d.op2 s).value sum.result (s.flag .v)) :
    blockEffect d s = if writesRd d.opcode then commitRd d.rd sum.result (arithStatus d.setFlags sum s.cpsr) s
      else commitStatus (arithStatus d.setFlags sum s.cpsr) s := by
  simp only [blockEffect, blockStatus, ← hr, ← hc, ← hv, arithStatus]
  cases writesRd d.opcode <;> cases hcl : opClass d.opcode <;> first | exact absurd hcl ho | rfl

/-- An instruction is the gate of R82 around the block's effect of its fields. -/
theorem exec_eq_gate (i : Instr) (s : State) :
    exec i s = gate i.cond i.setFlags i.rd s (blockEffect i.toDecoded s) := by
  have hsub : ∀ {o : Opcode}, o = .sub ∨ o = .cmp ∨ o = .rsb ∨ o = .sbc ∨ o = .rsc ∨ o = .add ∨ o = .adc ∨ o = .cmn →
      opClass o ≠ .logical := by rintro o (rfl | rfl | rfl | rfl | rfl | rfl | rfl | rfl) <;> decide
  cases i with
  | and _ _ _ _ _ => rw [blockEffect_logicalRd _ _ rfl rfl]; rfl
  | eor _ _ _ _ _ => rw [blockEffect_logicalRd _ _ rfl rfl]; rfl
  | orr _ _ _ _ _ => rw [blockEffect_logicalRd _ _ rfl rfl]; rfl
  | mov _ _ _ _ _ => rw [blockEffect_logicalRd _ _ rfl rfl]; rfl
  | bic _ _ _ _ _ => rw [blockEffect_logicalRd _ _ rfl rfl]; rfl
  | mvn _ _ _ _ _ => rw [blockEffect_logicalRd _ _ rfl rfl]; rfl
  | tst _ _ _ _ => rw [blockEffect_logicalTest _ _ rfl rfl]; rfl
  | teq _ _ _ _ => rw [blockEffect_logicalTest _ _ rfl rfl]; rfl
  | sub _ _ rn _ o =>
    rw [blockEffect_arith _ s (addWithCarry (s.reg rn) (~~~(resolve o s).value) true) (hsub (by simp [Instr.toDecoded]))
      (addWithCarry_sub _ _) (addWithCarry_noBorrow _ _ _) (addWithCarry_subOverflow _ _ _)]; rfl
  | cmp _ rn _ o =>
    rw [blockEffect_arith _ s (addWithCarry (s.reg rn) (~~~(resolve o s).value) true) (hsub (by simp [Instr.toDecoded]))
      (addWithCarry_sub _ _) (addWithCarry_noBorrow _ _ _) (addWithCarry_subOverflow _ _ _)]; rfl
  | rsb _ _ rn _ o =>
    rw [blockEffect_arith _ s (addWithCarry (resolve o s).value (~~~(s.reg rn)) true) (hsub (by simp [Instr.toDecoded]))
      (addWithCarry_sub _ _) (addWithCarry_noBorrow _ _ _) (addWithCarry_subOverflow _ _ _)]; rfl
  | sbc _ _ rn _ o =>
    rw [blockEffect_arith _ s (addWithCarry (s.reg rn) (~~~(resolve o s).value) (s.flag .c))
      (hsub (by simp [Instr.toDecoded])) (addWithCarry_sbc _ _ _) (addWithCarry_noBorrow _ _ _)
      (addWithCarry_subOverflow _ _ _)]; rfl
  | rsc _ _ rn _ o =>
    rw [blockEffect_arith _ s (addWithCarry (resolve o s).value (~~~(s.reg rn)) (s.flag .c))
      (hsub (by simp [Instr.toDecoded])) (addWithCarry_sbc _ _ _) (addWithCarry_noBorrow _ _ _)
      (addWithCarry_subOverflow _ _ _)]; rfl
  | add _ _ rn _ o =>
    rw [blockEffect_arith _ s (addWithCarry (s.reg rn) (resolve o s).value false) (hsub (by simp [Instr.toDecoded]))
      (addWithCarry_add _ _) rfl (addWithCarry_addOverflow _ _ _)]; rfl
  | cmn _ rn _ o =>
    rw [blockEffect_arith _ s (addWithCarry (s.reg rn) (resolve o s).value false) (hsub (by simp [Instr.toDecoded]))
      (addWithCarry_add _ _) rfl (addWithCarry_addOverflow _ _ _)]; rfl
  | adc _ _ rn _ o =>
    rw [blockEffect_arith _ s (addWithCarry (s.reg rn) (resolve o s).value (s.flag .c))
      (hsub (by simp [Instr.toDecoded])) (addWithCarry_adc _ _ _) rfl (addWithCarry_addOverflow _ _ _)]; rfl

/-- If an instruction answers a next state, its condition failed and nothing changed, or the block's effect happened. -/
theorem exec_next {i : Instr} {s t : State} (h : exec i s = .next t) :
    (FailsCond i.cond s ∧ t = s.setWrotePc false) ∨
    (Passes i.cond s ∧ ¬ PcWithS i.setFlags i.rd ∧ t = blockEffect i.toDecoded s) := by
  rw [exec_eq_gate] at h
  exact gate_next h

/-- The block's `execute` passes the same gate. -/
theorem outcomeOf_blockExecute (d : DecodedInstruction) (s : State) :
    outcomeOf (blockExecute d s) = gate d.cond d.setFlags d.rd s (blockEffect d s) := by
  unfold blockExecute gate
  rcases s.evaluate d.cond with _ | _ | _
  · rfl
  · rfl
  · simp only
    split <;> rfl

theorem blockEffect_cpsr (d : DecodedInstruction) (s : State) :
    (blockEffect d s).cpsr = blockStatus d (s.reg d.rn) (resolve d.op2 s).value
      (aluResult d.opcode (s.reg d.rn) (resolve d.op2 s).value (s.flag .c)) (resolve d.op2 s).carry s := by
  simp only [blockEffect]
  split <;> rfl

theorem blockEffect_wrotePc (d : DecodedInstruction) (s : State) :
    (blockEffect d s).wrotePc = (writesRd d.opcode && d.rd == pcReg) := rfl

theorem blockEffect_input (d : DecodedInstruction) (s : State) : (blockEffect d s).input = s.input := by
  simp only [blockEffect]
  split <;> rfl

/-- The block's effect writes Rd and no other register (42_execute.md R96). -/
theorem blockEffect_writesOnly (d : DecodedInstruction) (s : State) (h : writesRd d.opcode = true) :
    WritesOnly d.rd (aluResult d.opcode (s.reg d.rn) (resolve d.op2 s).value (s.flag .c)) s (blockEffect d s) := by
  simp only [blockEffect, h, if_true]
  exact ⟨by simp, fun r hr => by simp [hr]⟩

theorem blockEffect_writesNothing (d : DecodedInstruction) (s : State) (h : writesRd d.opcode = false) :
    WritesNothing s (blockEffect d s) := by
  simp only [blockEffect, h]
  exact fun _ => rfl

/-- With S = 0 the block's effect leaves the status word as it is (42_execute.md R89). -/
theorem blockEffect_keepsStatus (d : DecodedInstruction) (s : State) (h : d.setFlags = false) :
    (blockEffect d s).cpsr = s.cpsr := by
  simp [blockEffect_cpsr, blockStatus, h]

/-- With S = 1 the block's effect sets the four flags by the rules of the operation's class (R90 to R95). -/
theorem blockEffect_flags (d : DecodedInstruction) (s : State) (h : d.setFlags = true) :
    let res := aluResult d.opcode (s.reg d.rn) (resolve d.op2 s).value (s.flag .c)
    FlagsAre (blockEffect d s) (res.getLsbD 31) (res == 0#32)
      (aluCarry d.opcode (s.reg d.rn) (resolve d.op2 s).value (s.flag .c) (resolve d.op2 s).carry)
      (aluOverflow d.opcode (s.reg d.rn) (resolve d.op2 s).value res (s.flag .v)) := by
  simp only [FlagsAre, State.flag, blockEffect_cpsr, blockStatus, h, if_true]
  cases d.opcode <;> simp [opClass, writeNZ, isSet_writeFlag, aluOverflow]

/-- The block's effect keeps every status bit outside N, Z, C and V (10_state.md R24). -/
theorem blockEffect_reserved (d : DecodedInstruction) (s : State) : SameReservedBits s (blockEffect d s) := by
  intro k _ hb
  obtain ⟨hn, hz, hc, hv⟩ := not_isNZCVBit hb
  rw [blockEffect_cpsr, blockStatus]
  split
  · simp only
    split <;> simp only [writeNZ, writeFlag_bit, hn, hz, hc, hv, if_false]
  · rfl

/-- The fields of the instruction a word of the class decodes to are the block's reading of the word (30_encoding.md
R47): inside the class a compare has S = 1. -/
theorem toDecoded_of_decodeWord {w : Word} {i : Instr} (h : decodeWord w = .ok i) : i.toDecoded = decodeFields w := by
  have hc : isDPClass w = true := by
    rw [← classError_none]
    unfold decodeWord at h
    split at h
    · cases h
    · assumption
  rw [decodeWord_class hc] at h
  obtain rfl : i = instrOfDecoded (decodeFields w) := by cases h; rfl
  have hS : ∀ d : DecodedInstruction, (d.opcode ∈ [Opcode.tst, .teq, .cmp, .cmn] → d.setFlags = true) →
      (instrOfDecoded d).toDecoded = d := by
    rintro ⟨c, o, sf, n, r, p⟩ hd
    cases o <;> simp_all [instrOfDecoded, Instr.toDecoded]
  refine hS _ fun ho => ?_
  show w.getLsbD 20 = true
  change opcodeOfCode (field w 21 4) ∈ _ at ho
  have hcode : ∀ x : BitVec 4, opcodeOfCode x ∈ [Opcode.tst, .teq, .cmp, .cmn] → x.extractLsb' 2 2 = 2#2 := by decide
  have hf : field w 23 2 = (field w 21 4).extractLsb' 2 2 := by
    apply BitVec.eq_of_getLsbD_eq
    intro j hj
    simp [field, hj]
    rw [← Nat.add_assoc, decide_eq_true (by omega)]
    simp
  simp only [isDPClass, Bool.and_eq_true, Bool.not_eq_true'] at hc
  have h20 := hc.2
  rw [hf, hcode _ ho] at h20
  simpa using h20

end Sys2Proof.Machine
end

