-- ==== Sys2Proof/Laws/Operands.lean ====
section
/-! SUPPORT. The barrel shifter in arithmetic terms (00_scope.md R10, 41_shifter.md). -/

namespace Sys2Proof.Machine

theorem lsl_toNat (v : Word) (n : Nat) : (lsl v n).toNat = v.toNat * 2 ^ n % 2 ^ 32 := by
  simp [lsl, Nat.shiftLeft_eq]

theorem lsr_toNat (v : Word) (n : Nat) : (lsr v n).toNat = v.toNat / 2 ^ n := by
  simp [lsr, Nat.shiftRight_eq_div_pow]

theorem asr_toInt (v : Word) (n : Nat) : (asr v n).toInt = v.toInt / 2 ^ n := by
  simp [asr, BitVec.toInt_sshiftRight, Int.shiftRight_eq_div_pow]

/-- Bit k of a rotation right by n is bit (k + n) mod 32 (R10). -/
theorem ror_bit (v : Word) (n k : Nat) (hk : k < 32) : (ror v n).getLsbD k = v.getLsbD ((k + n) % 32) := by
  unfold ror
  have hm : n % 32 < 32 := Nat.mod_lt _ (by decide)
  have hs : (k + n) % 32 = (k + n % 32) % 32 := by omega
  split
  · rw [hs]; congr 1; omega
  · simp only [lsl, lsr, BitVec.getLsbD_or, BitVec.getLsbD_ushiftRight, BitVec.getLsbD_shiftLeft, hk, decide_true,
      Bool.true_and]
    by_cases h : k + n % 32 < 32
    · have h1 : k < 32 - n % 32 := by omega
      rw [hs, Nat.mod_eq_of_lt h]
      simp [h1, Nat.add_comm]
    · have h1 : ¬ k < 32 - n % 32 := by omega
      have h2 : (k + n) % 32 = k - (32 - n % 32) := by omega
      have h3 : 32 ≤ n % 32 + k := by omega
      have h4 : v.getLsbD (n % 32 + k) = false := BitVec.getLsbD_of_ge v _ h3
      simp [h1, h2, h4]

/-- The last bit rotated out lands in position 31 (41_shifter.md R70). -/
theorem ror_bit31 (v : Word) (n : Nat) (h1 : n % 32 ≠ 0) : (ror v n).getLsbD 31 = v.getLsbD (n % 32 - 1) := by
  rw [ror_bit _ _ _ (by decide)]
  congr 1
  omega

theorem fill_bit (b : Bool) (k : Nat) (hk : k < 32) : (fill b).getLsbD k = b := by
  cases b
  · simp [fill]
  · have : ∀ j : Fin 32, (fill true).getLsbD j = true := by decide
    exact this ⟨k, hk⟩

/-- The low 8 bits of the shift register (R69). -/
theorem shiftAmount_eq (v : Word) : shiftAmount v = v.toNat % 256 := by
  simp [shiftAmount, BitVec.extractLsb'_toNat]

theorem shiftAmount_lt (v : Word) : shiftAmount v < 256 := by
  rw [shiftAmount_eq]; omega

/-- Operand 2 sees the registers and C only (R67). -/
theorem resolve_congr {s t : State} (hr : ∀ r, s.reg r = t.reg r) (hc : s.flag .c = t.flag .c) (o : Operand2) :
    resolve o s = resolve o t := by
  cases o <;> simp [resolve, hr, hc]

end Sys2Proof.Machine
end

