-- ==== Sys2Proof/Laws/PerInstr.lean ====
section
/-! SUPPORT. For every instruction as syntax: its word is of the data-processing class and carries its fields
(30_encoding.md R42, R52, R55). -/

namespace Sys2Proof

/-- The operations with opcode 10xx are the four that write no register (R48). -/
theorem opcode_not_test {op : Opcode} (h : Machine.writesRd op = true) :
    (opcodeCode op).extractLsb' 2 2 ≠ 2#2 := by
  cases op <;> first | (simp [Machine.writesRd] at h; done) | decide

/-- The class predicate of an encoded word: only the operand-2 bits and the S bit of a compare decide it. -/
theorem isDPClass_encodeFields (d : DecodedInstruction)
    (hs : d.setFlags = true ∨ Machine.writesRd d.opcode = true) :
    isDPClass (encodeFields d) = true := by
  have h23 : field (encodeFields d) 23 2 = (opcodeCode d.opcode).extractLsb' 2 2 := by
    rw [← field_encode_opcode]
    apply BitVec.eq_of_getLsbD_eq
    intro j hj
    simp [field, hj, show 2 + j < 4 by omega, ← Nat.add_assoc]
  have h74 : (!d.op2.isImm && (operand2Bits d.op2).getLsbD 7 && (operand2Bits d.op2).getLsbD 4) = false := by
    cases d.op2 with
    | imm r i => rfl
    | regImm rm t n =>
      rw [operand2Bits_regImm_bit4, Bool.and_false]
    | regReg rm t rs =>
      rw [operand2Bits_regReg_bit7, Bool.and_false, Bool.false_and]
  simp only [isDPClass, field_encode_class, h23, bit_encode_isImm, bit_encode_op2 d 7 (by decide),
    bit_encode_op2 d 4 (by decide), bit_encode_setFlags, h74]
  rcases hs with h | h
  · simp [h]
  · simp [opcode_not_test h]

namespace Laws.WordOfInstr

/-- The word of an instruction is of the class, and its condition, opcode, S, Rn and Rd fields are the instruction's. -/
def Statement (i : Instr) : Prop :=
  isDPClass (encode i) = true ∧ field (encode i) 28 4 = condCode i.cond ∧
    field (encode i) 21 4 = opcodeCode i.opcode ∧ (encode i).getLsbD 20 = i.setFlags ∧
    field (encode i) 16 4 = regBits i.rn ∧ field (encode i) 12 4 = regBits i.rd

/-- The fields read back from any decoded fields; the class needs S = 1 for a compare. -/
theorem of_fields (i : Instr)
    (hs : i.setFlags = true ∨ Machine.writesRd i.opcode = true) : Statement i :=
  ⟨isDPClass_encodeFields _ hs, field_encode_cond _, field_encode_opcode _, bit_encode_setFlags _,
    field_encode_rn _, field_encode_rd _⟩

variable (c : Cond) (s : Bool) (n d : RegId) (o : Operand2)

theorem and : Statement (.and c s n d o) := of_fields _ (.inr rfl)
theorem eor : Statement (.eor c s n d o) := of_fields _ (.inr rfl)
theorem sub : Statement (.sub c s n d o) := of_fields _ (.inr rfl)
theorem rsb : Statement (.rsb c s n d o) := of_fields _ (.inr rfl)
theorem add : Statement (.add c s n d o) := of_fields _ (.inr rfl)
theorem adc : Statement (.adc c s n d o) := of_fields _ (.inr rfl)
theorem sbc : Statement (.sbc c s n d o) := of_fields _ (.inr rfl)
theorem rsc : Statement (.rsc c s n d o) := of_fields _ (.inr rfl)
theorem tst : Statement (.tst c n d o) := of_fields _ (.inl rfl)
theorem teq : Statement (.teq c n d o) := of_fields _ (.inl rfl)
theorem cmp : Statement (.cmp c n d o) := of_fields _ (.inl rfl)
theorem cmn : Statement (.cmn c n d o) := of_fields _ (.inl rfl)
theorem orr : Statement (.orr c s n d o) := of_fields _ (.inr rfl)
theorem mov : Statement (.mov c s n d o) := of_fields _ (.inr rfl)
theorem bic : Statement (.bic c s n d o) := of_fields _ (.inr rfl)
theorem mvn : Statement (.mvn c s n d o) := of_fields _ (.inr rfl)

end Laws.WordOfInstr

end Sys2Proof
end

