-- ==== Sys2Proof/Tests/Slice0.lean ====
section
/-! SUPPORT. The model's own tests, one step each, with expected values from spec/95_test_vectors.md (the table row or the
property S<n> is named), and for every statement with hypotheses a state and operands that meet all of them. -/

namespace Sys2Proof.Tests

open Sys2Proof Sys2Proof.Machine

/-- Registers not listed are 0; `f` holds N Z C V in its four bits, the other status bits are 0 (95, notation). -/
def st (rs : List (RegId × Word)) (f : BitVec 4) : State :=
  rs.foldl (fun s p => s.setReg p.1 p.2) (State.ofParams (Vector.replicate 16 0) (f ++ 0#28))

/-- One step on a word, as the first instruction after the given state. -/
def one (w : Nat) (s : State) : Result := step (s.withFetchWord 32 w)

/-- A register and the four flags of the next state, if there is one; the other status bits must be 0. -/
def after (o : Result) (r : RegId) : Option (Word × BitVec 4) :=
  match nextState? o with
  | none => none
  | some t => if t.cpsr.extractLsb' 0 28 = 0 then some (t.reg r, t.cpsr.extractLsb' 28 4) else none

/-- A computed outcome is a next state. -/
theorem next_of {o : Result} (h : (nextState? o).isSome = true) : ∃ t, o = .next t := by
  cases o with
  | next t => exact ⟨t, rfl⟩
  | fault _ => cases h
  | refused _ => cases h

-- Well-formedness: an ill-formed operand 2 for each check, refused, and the largest values, admitted (R50, R69).

theorem test_wellFormed_rotate :
    ¬ (Instr.mov .al true 0 0 (.imm 16 0)).WellFormed ∧ (Instr.mov .al true 0 0 (.imm 15 0xFF)).WellFormed := by decide

theorem test_wellFormed_amount :
    ¬ (Instr.mov .al true 0 0 (.regImm 1 .lsr 32)).WellFormed ∧ (Instr.mov .al true 0 0 (.regImm 1 .lsr 31)).WellFormed
      ∧ (Instr.mov .al true 0 0 (.regReg 15 .ror 15)).WellFormed := by decide

-- Decoding: words written field by field, cond 00 I opcode S Rn Rd operand2 (R42, R48, R49).

theorem test_decode_logical :
    decodeTableWord 32 0b1110_00_1_0000_1_0001_0000_0100_11111111 = some (.and .al true 1 0 (.imm 4 0xFF)) ∧
    decodeTableWord 32 0b0000_00_0_0001_1_0010_0011_00001_00_0_0100 = some (.eor .eq true 2 3 (.regImm 4 .lsl 1)) ∧
    decodeTableWord 32 0b1101_00_0_1100_0_0001_0011_0010_0_11_1_0101 = some (.orr .le false 1 3 (.regReg 5 .ror 2)) ∧
    decodeTableWord 32 0b0001_00_1_1101_0_0000_1111_0000_00000000 = some (.mov .ne false 0 15 (.imm 0 0)) ∧
    decodeTableWord 32 0b0010_00_0_1110_1_1110_1101_11111_01_0_1100 = some (.bic .cs true 14 13 (.regImm 12 .lsr 31)) ∧
    decodeTableWord 32 0b1111_00_0_1111_1_1000_0100_0001_0_10_1_0010 = some (.mvn .reserved true 8 4 (.regReg 2 .asr 1)) := by
  decide

theorem test_decode_arithmetic :
    decodeTableWord 32 0b0011_00_0_0010_0_0001_0010_00000_01_0_0011 = some (.sub .cc false 1 2 (.regImm 3 .lsr 0)) ∧
    decodeTableWord 32 0b0100_00_1_0011_1_0101_0110_1111_00000001 = some (.rsb .mi true 5 6 (.imm 15 1)) ∧
    decodeTableWord 32 0b0101_00_0_0100_0_0111_1000_1001_0_00_1_1010 = some (.add .pl false 7 8 (.regReg 10 .lsl 9)) ∧
    decodeTableWord 32 0b0110_00_0_0101_1_1011_1100_00000_11_0_1101 = some (.adc .vs true 11 12 (.regImm 13 .ror 0)) ∧
    decodeTableWord 32 0b0111_00_0_0110_1_0001_0000_10000_10_0_0010 = some (.sbc .vc true 1 0 (.regImm 2 .asr 16)) ∧
    decodeTableWord 32 0b1000_00_1_0111_0_0010_0001_0000_10000000 = some (.rsc .hi false 2 1 (.imm 0 0x80)) := by decide

theorem test_decode_compare :
    decodeTableWord 32 0b1001_00_1_1000_1_0001_0000_0001_00000010 = some (.tst .ls 1 0 (.imm 1 2)) ∧
    decodeTableWord 32 0b1010_00_0_1001_1_0001_0000_00000_00_0_0010 = some (.teq .ge 1 0 (.regImm 2 .lsl 0)) ∧
    decodeTableWord 32 0b1011_00_0_1010_1_0001_1111_0100_0_01_1_0010 = some (.cmp .lt 1 15 (.regReg 2 .lsr 4)) ∧
    decodeTableWord 32 0b1100_00_1_1011_1_0001_0101_0000_00000001 = some (.cmn .gt 1 5 (.imm 0 1)) := by decide

/-- Section 2.2, the last two rows, and words of the other classes: refused by name (R55). -/
theorem test_decode_refused :
    decodeWord 0xE0000090 = .error .multiplyTransferSpace ∧ decodeWord 0xE10F0000 = .error .statusTransferSpace ∧
    decodeWord 0xE5900000 = .error .otherClass ∧ decodeWord 0xEA000000 = .error .otherClass ∧
    decode [0x02, 0x00, 0x91] = .error .truncated := by decide

theorem test_encode :
    encode (.sub .ne false 15 15 (.imm 0 0x10)) = 0x124FF010 ∧ encode (.orr .al false 1 3 (.regImm 2 .lsl 4)) = 0xE1813202
      ∧ encode (.mov .al true 0 0 (.regReg 1 .lsl 2)) = 0xE1B00211
      ∧ encode (.cmp .al 1 0 (.regImm 2 .lsl 0)) = 0xE1510002 := by decide

-- Conditions (section 2.1): row c of the table read as 16 bits, column 0000 first.

def conditionRows : List (BitVec 16) :=
  [0x0F0F, 0xF0F0, 0x3333, 0xCCCC, 0x00FF, 0xFF00, 0x5555, 0xAAAA] ++
  [0x3030, 0xCFCF, 0xAA55, 0x55AA, 0xA050, 0x5FAF, 0xFFFF]

theorem test_conditionTable :
    ∀ c f : BitVec 4, evaluate (condOfCode c) (f.getLsbD 3) (f.getLsbD 2) (f.getLsbD 1) (f.getLsbD 0)
      = (conditionRows[c.toNat]?).map (fun row => row.getLsbD (15 - f.toNat)) := by decide

-- The shifter (section 2.3).

theorem test_shifter_immediate :
    resolve (.imm 0 0xFF) (st [] 0b0010) = ⟨0xFF, true⟩ ∧ resolve (.imm 4 0xFF) (st [] 0) = ⟨0xFF000000, true⟩ ∧
    resolve (.imm 15 0x01) (st [] 0b0010) = ⟨4, false⟩ ∧ resolve (.imm 8 0) (st [] 0b0010) = ⟨0, false⟩ := by decide

theorem test_shifter_amount :
    let s := st [(1, 0x80000001)] 0
    resolve (.regImm 1 .lsl 31) s = ⟨0x80000000, false⟩ ∧ resolve (.regImm 1 .lsr 0) s = ⟨0, true⟩ ∧
    resolve (.regImm 1 .asr 1) s = ⟨0xC0000000, true⟩ ∧ resolve (.regImm 1 .asr 0) s = ⟨0xFFFFFFFF, true⟩ ∧
    resolve (.regImm 1 .ror 31) s = ⟨3, false⟩ ∧ resolve (.regImm 1 .ror 0) s = ⟨0x40000000, true⟩ := by decide

theorem test_shifter_register :
    let s := fun (n : Word) => st [(1, 0x80000001), (2, n)] 0
    resolve (.regReg 1 .lsl 2) (s 0x100) = ⟨0x80000001, false⟩ ∧ resolve (.regReg 1 .lsl 2) (s 32) = ⟨0, true⟩ ∧
    resolve (.regReg 1 .lsl 2) (s 255) = ⟨0, false⟩ ∧ resolve (.regReg 1 .lsr 2) (s 32) = ⟨0, true⟩ ∧
    resolve (.regReg 1 .lsr 2) (s 33) = ⟨0, false⟩ ∧ resolve (.regReg 1 .asr 2) (s 32) = ⟨0xFFFFFFFF, true⟩ ∧
    resolve (.regReg 1 .ror 2) (s 32) = ⟨0x80000001, true⟩ ∧
    resolve (.regReg 1 .ror 2) (s 36) = ⟨0x18000000, false⟩ := by decide

-- The instructions, two rows of section 2.4 each, run from their words.

theorem test_and_rotated : after (one 0xE21104FF (st [(1, 0x80000001)] 0)) 0 = some (0x80000000, 0b1010) := by decide
theorem test_and_noFlags : after (one 0xE2010000 (st [(1, 0xFFFFFFFF)] 0b1011)) 0 = some (0, 0b1011) := by decide
theorem test_eor_self : after (one 0xE0322002 (st [(2, 0xDEADBEEF)] 0b1010)) 2 = some (0, 0b0110) := by decide
theorem test_eor_shifterCarry : after (one 0xE0310082 (st [(2, 0x80000000)] 0b0001)) 0 = some (0, 0b0111) := by decide
theorem test_sub_borrow : after (one 0xE0510002 (st [(1, 3), (2, 5)] 0)) 0 = some (0xFFFFFFFE, 0b1000) := by decide
theorem test_sub_overflow : after (one 0xE2510001 (st [(1, 0x80000000)] 0)) 0 = some (0x7FFFFFFF, 0b0011) := by decide
theorem test_rsb_negate : after (one 0xE2710000 (st [(1, 1)] 0)) 0 = some (0xFFFFFFFF, 0b1000) := by decide
theorem test_rsb_overflow : after (one 0xE2710000 (st [(1, 0x80000000)] 0)) 0 = some (0x80000000, 0b1001) := by decide
/-- S6. -/
theorem test_add_carry : after (one 0xE0910002 (st [(1, 0xFFFFFFFF), (2, 1)] 0)) 0 = some (0, 0b0110) := by decide
/-- S7. -/
theorem test_add_overflow : after (one 0xE0910002 (st [(1, 0x7FFFFFFF), (2, 1)] 0)) 0 = some (0x80000000, 0b1001) := by
  decide
theorem test_adc_carryIn : after (one 0xE0B10002 (st [(1, 0xFFFFFFFF)] 0b0010)) 0 = some (0, 0b0110) := by decide
theorem test_adc_bothMax :
    after (one 0xE0B10002 (st [(1, 0xFFFFFFFF), (2, 0xFFFFFFFF)] 0b0010)) 0 = some (0xFFFFFFFF, 0b1010) := by decide
theorem test_sbc_borrowIn : after (one 0xE0D10002 (st [(1, 5), (2, 5)] 0)) 0 = some (0xFFFFFFFF, 0b1000) := by decide
theorem test_sbc_wrap : after (one 0xE0D10002 (st [(2, 0xFFFFFFFF)] 0)) 0 = some (0, 0b0100) := by decide
theorem test_rsc_borrowIn : after (one 0xE2F10000 (st [] 0)) 0 = some (0xFFFFFFFF, 0b1000) := by decide
theorem test_rsc_noOverflow : after (one 0xE2F10000 (st [(1, 0x7FFFFFFF)] 0)) 0 = some (0x80000000, 0b1000) := by decide
theorem test_tst_rotated : after (one 0xE3110102 (st [(1, 0x80000000)] 0)) 0 = some (0, 0b1010) := by decide
theorem test_tst_carryKept : after (one 0xE31100F0 (st [(1, 0x0F)] 0b1011)) 0 = some (0, 0b0111) := by decide
theorem test_teq_equal : after (one 0xE1310002 (st [(1, 7), (2, 7)] 0b1011)) 0 = some (0, 0b0111) := by decide
theorem test_teq_sign : after (one 0xE1310002 (st [(1, 0x80000000), (2, 1)] 0)) 0 = some (0, 0b1000) := by decide
/-- S9: the register the Rd field names keeps its value. -/
theorem test_cmp_below : after (one 0xE1510002 (st [(0, 0x55), (1, 1), (2, 2)] 0)) 0 = some (0x55, 0b1000) := by decide
theorem test_cmp_rdField : after (one 0xE1515002 (st [(1, 3), (2, 3), (5, 0x99)] 0)) 5 = some (0x99, 0b0110) := by decide
theorem test_cmn_carry : after (one 0xE3710001 (st [(1, 0xFFFFFFFF)] 0)) 0 = some (0, 0b0110) := by decide
theorem test_cmn_overflow : after (one 0xE1710002 (st [(1, 0x80000000), (2, 0x80000000)] 0)) 0 = some (0, 0b0111) := by
  decide
theorem test_orr_shifted : after (one 0xE1813202 (st [(1, 0x0F), (2, 0x0F)] 0)) 3 = some (0xFF, 0) := by decide
theorem test_orr_rotated : after (one 0xE19100E2 (st [(2, 1)] 0)) 0 = some (0x80000000, 0b1010) := by decide
theorem test_mov_rrx : after (one 0xE1B00061 (st [(1, 1)] 0b0010)) 0 = some (0x80000000, 0b1010) := by decide
theorem test_mov_pc :
    (nextState? (one 0xE1A0F00E (st [(14, 0x08000100), (15, 0x08000008)] 0))).map (fun t => (t.reg 15, t.wrotePc))
      = some (0x08000100, true) := by decide
theorem test_bic_clears : after (one 0xE3D10001 (st [(1, 1)] 0b0001)) 0 = some (0, 0b0101) := by decide
theorem test_bic_rotated : after (one 0xE3D104FF (st [(1, 0xFFFFFFFF)] 0)) 0 = some (0x00FFFFFF, 0b0010) := by decide
theorem test_mvn_zero : after (one 0xE3F00000 (st [] 0b0100)) 0 = some (0xFFFFFFFF, 0b1000) := by decide
theorem test_mvn_carryKept : after (one 0xE1F00001 (st [(1, 0xFFFFFFFF)] 0b0010)) 0 = some (0, 0b0110) := by decide

-- The gate and the two errors (section 2.4), the refusals, the host.

/-- S10, and the same word with Z = 1. -/
theorem test_conditionGate :
    after (one 0x03B00001 (st [(0, 7)] 0)) 0 = some (7, 0) ∧ after (one 0x03B00001 (st [(0, 7)] 0b0100)) 0 = some (1, 0) := by
  decide

theorem test_errors :
    fault? (one 0xF2900001 (st [(0, 7)] 0)) = some .illegalCondition ∧
    fault? (one 0xF1B0F00E (st [(14, 0x100)] 0)) = some .illegalCondition ∧
    fault? (one 0xE1B0F00E (st [(14, 0x100)] 0b0100)) = some .illegalDestination ∧
    fault? (one 0xE151F002 (st [(1, 1), (2, 1)] 0)) = some .illegalDestination ∧
    after (one 0x125EF004 (st [(14, 0x104), (15, 8)] 0b0100)) 15 = some (8, 0b0100) := by decide

/-- A word outside the class is refused by the model and is a step without effect of the block (S9, D15). -/
theorem test_outsideTheClass :
    refusal? (one 0xE1410002 (st [(1, 1), (2, 2)] 0)) = some .statusTransferSpace ∧
    blockExecute (decodeFields 0xE1410002) (st [(1, 1), (2, 2)] 0) = (.ok, st [(1, 1), (2, 2)] 0) ∧
    refusal? (step State.reset) = some .noCall := by decide

/-- The model's part of a reset: with nothing placed no instruction runs, and a placed word runs next (log 4). -/
theorem test_reset_runsPlacedWord : after (one 0xE3F00000 State.reset) 0 = some (0xFFFFFFFF, 0b1000) := by decide

/-- A call's writes come before its word: the host places the PC value, ADD PC, PC, #8 reads it (section 2.4; R126). -/
theorem test_hostWriteBeforeWord :
    after (step ((st [] 0).setInput [⟨[.setFlag .c, .reg 15 0x08000008], 0xE28FF008⟩])) 15
      = some (0x08000010, 0b0010) := by decide

/-- Program P3 (section 3.4): the taken branch at 0x0800000C goes back to 0x08000004. -/
theorem test_h0_branch :
    (match h0Step ⟨0x0800000C, [0x124FF010, 0xE1A02001], 0x08000014, 0x0800000C, st [(0, 2)] 0b0010⟩ with
      | .running h => some h.pc | .finished _ => none | .stopped _ _ => none | .offProgram => none)
      = some 0x08000004 := by decide

-- Witnesses: for each statement with hypotheses, a state and operands that meet them all.

/-- A state with N = 0, Z = 1, C = 1, V = 0, R1 = 0x80000001, R2 = 32 and a call pending. -/
def sW : State := (st [(1, 0x80000001), (2, 32), (3, 5)] 0b0110).setInput [⟨[.reg 15 8], 0xE0910002⟩]

theorem witness_DecodeOfEncode :
    (Instr.rsc .reserved true 15 15 (.imm 15 0xFF)).WellFormed ∧ (Instr.tst .al 0 0 (.regImm 1 .ror 31)).WellFormed := by
  decide

theorem witness_EncodeOfDecode :
    decodeWord 0xF3F1FFFF = .ok (.mvn .reserved true 1 15 (.imm 15 0xFF)) ∧
    decodeWord 0xE1A00FE1 = .ok (.mov .al false 0 0 (.regImm 1 .ror 31)) := by decide

theorem witness_DecoderAcceptsExactlyTheClass :
    (∃ i, decodeWord 0xE3A00001 = .ok i) ∧ ¬ (∃ i, decodeWord 0xE0000090 = .ok i) :=
  ⟨⟨.mov .al false 0 0 (.imm 0 1), by decide⟩, by
    rintro ⟨i, h⟩
    have : decodeWord 0xE0000090 = .error .multiplyTransferSpace := by decide
    rw [this] at h
    cases h⟩

theorem witness_StepRunsTheDecodedInstruction :
    sW.input = ⟨[.reg 15 8], 0xE0910002⟩ :: [] ∧
      decode (wordBytes 0xE0910002) = .ok (.add .al true 1 0 (.regImm 2 .lsl 0), []) := by decide

theorem witness_FetchWordRunsNext : decodeTableWord 32 0x124FF010 = some (.sub .ne false 15 15 (.imm 0 0x10)) := by decide

/-- Each condition passes in some state, each but AL fails in some state. -/
theorem witness_ConditionTruthTable :
    (∀ c : BitVec 4, c ≠ 15 → ∃ f : BitVec 4, Passes (condOfCode c) (st [] f)) ∧
    (∀ c : BitVec 4, c ≠ 15 → c ≠ 14 → ∃ f : BitVec 4, FailsCond (condOfCode c) (st [] f)) := by decide

theorem witness_ConditionsAfterCompare :
    Passes .eq sW ∧ ∃ t, exec (.cmp .eq 1 0 (.regImm 2 .lsl 0)) sW = .next t := ⟨by decide, next_of (by decide)⟩

/-- Rotate 0, 1 and 15, bits 0 and 31. -/
theorem witness_ImmediateOperand :
    0 < 16 ∧ 15 < 16 ∧ (resolve (.imm 0 0xFF) sW).carry = sW.flag .c ∧ (resolve (.imm 1 0x02) sW).carry = true ∧
    (resolve (.imm 15 0x01) sW).value.getLsbD 2 = true := by decide

/-- Amounts 0, 1 and 31 (section 2.3). -/
theorem witness_LslByImmediate :
    resolve (.regImm 1 .lsl 0) sW = ⟨0x80000001, true⟩ ∧ resolve (.regImm 1 .lsl 1) sW = ⟨2, true⟩ ∧
    resolve (.regImm 1 .lsl 31) sW = ⟨0x80000000, false⟩ := by decide

/-- Amounts 1 and 31, by a register too. -/
theorem witness_CarryIsLastBitShiftedOut :
    (1 ≤ 1 ∧ 1 ≤ 31 ∧ ((st [(2, 0x101)] 0).reg 2).toNat % 256 = 1) ∧ (1 ≤ 31 ∧ ((st [(2, 31)] 0).reg 2).toNat % 256 = 31) := by
  decide

/-- Amounts 0, 1 and 31 of each of the three types (section 2.3). -/
theorem witness_LsrAsrRorByImmediate :
    let s := st [(1, 0x80000001)] 0
    (resolve (.regImm 1 .lsr 0) s = ⟨0, true⟩ ∧ resolve (.regImm 1 .asr 0) s = ⟨0xFFFFFFFF, true⟩ ∧
      resolve (.regImm 1 .ror 0) s = ⟨0x40000000, true⟩) ∧
    (resolve (.regImm 1 .lsr 1) s = ⟨0x40000000, true⟩ ∧ resolve (.regImm 1 .asr 1) s = ⟨0xC0000000, true⟩ ∧
      resolve (.regImm 1 .ror 1) s = ⟨0xC0000000, true⟩) ∧
    (resolve (.regImm 1 .lsr 31) s = ⟨1, false⟩ ∧ resolve (.regImm 1 .asr 31) s = ⟨0xFFFFFFFF, false⟩ ∧
      resolve (.regImm 1 .ror 31) s = ⟨3, false⟩) := by decide

/-- The amounts at which a clause of LslByRegister, LsrByRegister or AsrRorByRegister begins or ends: 0, 1, 31, 32, 33, 64
and 255, each the low byte of a register that has other bits set. -/
theorem witness_ShiftsByRegister :
    ∀ n ∈ [0, 1, 31, 32, 33, 64, 255], ((st [(2, 0xABCDEF00 + BitVec.ofNat 32 n)] 0).reg 2).toNat % 256 = n := by decide

theorem witness_StatusRegisterContract :
    (∀ f : Flag, (0 : Nat) ≠ flagPos f) ∧ Flag.n ≠ .v ∧ isSet (setFlag 0 .q) .q = true := by
  refine ⟨fun f => ?_, by decide, by decide⟩
  cases f <;> decide

theorem witness_ReservedBitsPreserved :
    (∃ t, exec (.add .al true 1 0 (.regImm 2 .lsl 0)) (sW.setCpsr 0x0FFFFFFF) = .next t) ∧
    Flag.v ≠ .q ∧ ¬ isNZCVBit 27 :=
  ⟨next_of (by decide), by decide, by simp [isNZCVBit, flagPos]⟩

/-- S = 0, a failed condition with S = 1, a passed one with S = 1, and an error of the block. -/
theorem witness_FlagsOnlyWithS :
    (∃ t, exec (.add .al false 1 0 (.imm 0 1)) sW = .next t) ∧
    (¬ Passes .ne sW ∧ ∃ t, exec (.add .ne true 1 0 (.imm 0 1)) sW = .next t) ∧
    (∃ t, exec (.add .eq true 1 0 (.imm 0 1)) sW = .next t) ∧
    (blockExecute (decodeFields 0xE1B0F00E) sW).1 ≠ .ok :=
  ⟨next_of (by decide), ⟨by decide, next_of (by decide)⟩, next_of (by decide), by decide⟩

/-- A logical operation that writes Rd and one that does not, with S = 1. -/
theorem witness_LogicalCarryAndOverflow :
    Passes .eq sW ∧ (∃ t, exec (.bic .eq true 1 0 (.regReg 3 .lsr 2)) sW = .next t) ∧
    (∃ t, exec (.teq .eq 1 0 (.regReg 3 .lsr 2)) sW = .next t) :=
  ⟨by decide, next_of (by decide), next_of (by decide)⟩

theorem witness_NegativeAndZeroFromResult :
    Passes .cs sW ∧ (Instr.rsb .cs true 1 0 (.imm 0 0)).setFlags = true ∧
      ∃ t, exec (.rsb .cs true 1 0 (.imm 0 0)) sW = .next t := ⟨by decide, rfl, next_of (by decide)⟩

/-- ADC with C = 0 and with C = 1, ADD and CMN. -/
theorem witness_AdditiveCarry :
    (∃ t, exec (.adc .al true 1 0 (.imm 0 1)) sW = .next t) ∧ sW.flag .c = true ∧
    (∃ t, exec (.adc .al true 1 0 (.imm 0 1)) (st [] 0) = .next t) ∧ (st [] 0).flag .c = false ∧
    (∃ t, exec (.add .al true 1 0 (.imm 0 1)) sW = .next t) ∧ (∃ t, exec (.cmn .al 1 0 (.imm 0 1)) sW = .next t) :=
  ⟨next_of (by decide), by decide, next_of (by decide), by decide, next_of (by decide), next_of (by decide)⟩

/-- Each of the five operations, SBC and RSC with C = 1 and with C = 0, on equal operands, where the two clauses differ. -/
theorem witness_SubtractiveCarry :
    let o : Operand2 := .imm 0 5
    (∃ t, exec (.sub .al true 3 0 o) sW = .next t) ∧ (∃ t, exec (.cmp .al 3 0 o) sW = .next t) ∧
    (∃ t, exec (.rsb .al true 3 0 o) sW = .next t) ∧
    after (exec (.sbc .al true 3 0 o) sW) 0 = some (0, 0b0110) ∧
    after (exec (.rsc .al true 3 0 o) sW) 0 = some (0, 0b0110) ∧
    after (exec (.sbc .al true 3 0 o) (st [(3, 5)] 0)) 0 = some (0xFFFFFFFF, 0b1000) ∧
    after (exec (.rsc .al true 3 0 o) (st [(3, 5)] 0)) 0 = some (0xFFFFFFFF, 0b1000) :=
  ⟨next_of (by decide), next_of (by decide), next_of (by decide), by decide, by decide, by decide, by decide⟩

/-- An overflow and none, at the ends of the signed range. -/
theorem witness_OverflowIsSignedRange :
    opClass .sbc ≠ .logical ∧ Passes .al (st [(1, 0x80000000)] 0) ∧
    after (exec (.sbc .al true 1 0 (.imm 0 0)) (st [(1, 0x80000000)] 0)) 0 = some (0x7FFFFFFF, 0b0011) ∧
    after (exec (.sbc .al true 1 0 (.imm 0 0)) (st [(1, 0x80000001)] 0)) 0 = some (0x80000000, 0b1010) := by decide

/-- For AndCompletes, EorCompletes, SubCompletes, RsbCompletes, AddCompletes, AdcCompletes, SbcCompletes, RscCompletes,
OrrCompletes, MovCompletes, BicCompletes and MvnCompletes, whose hypotheses are the same two: S = 1, and S = 0 with
Rd = 15. -/
theorem witness_RdOperationsComplete :
    (Passes .eq sW ∧ ¬ PcWithS true 14) ∧ (Passes .al sW ∧ ¬ PcWithS false 15) := by decide

/-- For TstCompletes, TeqCompletes, CmpCompletes and CmnCompletes, whose hypotheses are the same two. -/
theorem witness_TestsComplete : (Passes .cs sW ∧ (14 : RegId) ≠ pcReg) ∧ (Passes .al sW ∧ (0 : RegId) ≠ pcReg) := by decide

theorem witness_RegisterWrites :
    (Passes .al sW ∧ ¬ PcWithS true 14) ∧ (Passes .eq sW ∧ ¬ PcWithS false 15) ∧ (Passes .al sW ∧ PcWithS true 15) ∧
    (∃ t, exec (.cmn .al 1 0 (.imm 0 8)) sW = .next t) := ⟨by decide, by decide, by decide, next_of (by decide)⟩

/-- With S = 0 and with S = 1. -/
theorem witness_PcDestinationIsPlainWrite :
    writesRd .add = true ∧ Passes .al sW ∧
    ((Instr.add .al false 15 15 (.imm 0 8)).rd = pcReg ∧ (Instr.add .al false 15 15 (.imm 0 8)).setFlags = false) ∧
    ((Instr.add .al true 15 15 (.imm 0 8)).rd = pcReg ∧ (Instr.add .al true 15 15 (.imm 0 8)).setFlags = true) := by decide

/-- Rd = 15 passed, Rd = 15 failed, another Rd, and a compare. -/
theorem witness_WrotePcOutput :
    (nextState? (exec (.mov .al false 0 15 (.imm 0 8)) sW)).map (·.wrotePc) = some true ∧
    (nextState? (exec (.mov .ne true 0 15 (.imm 0 8)) sW)).map (·.wrotePc) = some false ∧
    (nextState? (exec (.mov .al true 0 14 (.imm 0 8)) sW)).map (·.wrotePc) = some false ∧
    (nextState? (exec (.cmp .al 0 14 (.imm 0 8)) sW)).map (·.wrotePc) = some false := by decide

/-- Each of the four cases, in the same state. -/
theorem witness_OutcomeOrder :
    fault? (exec (.mov .reserved true 0 15 (.imm 0 8)) sW) = some .illegalCondition ∧
    FailsCond .ne sW ∧ (Passes .eq sW ∧ PcWithS true 15) ∧ (Passes .eq sW ∧ ¬ PcWithS true 14) := by decide

theorem witness_ReservedConditionRejected :
    (0xF2900001 : Word).extractLsb' 28 4 = 0xF ∧ decodeWord 0xF2900001 = .ok (.add .reserved true 0 0 (.imm 0 1)) := by decide

/-- Both errors. -/
theorem witness_ErrorLeavesStateUnchanged :
    blockExecute (decodeFields 0xE151F002) sW = (.illegalDestination, sW) ∧
    blockExecute (decodeFields 0xF2900001) sW = (.illegalCondition, sW) := by decide

theorem witness_StepRefinesBlock : sW.input = ⟨[.reg 15 8], 0xE0910002⟩ :: [] ∧ isDPClass 0xE0910002 = true := by decide

theorem witness_RefusedExactlyOutsideTheClass :
    sW.input ≠ [] ∧ (st [] 0).input = [] ∧
    refusal? (step (sW.setInput [⟨[], 0xE10F0000⟩])) = some .statusTransferSpace := by decide

theorem witness_HostWritesBetweenSteps :
    (applyHostWrites [.setFlag .n, .reg 15 8, .setFlag .q] sW).cpsr = 0xE8000000 ∧
    (applyHostWrites [.status 0xFFFFFFFF, .clearFlag .c] sW).cpsr = 0xDFFFFFFF := by decide

/-- Two calls pending, with writes. -/
def sRun : State :=
  (st [(1, 3)] 0b0110).setInput [⟨[.reg 15 8, .setFlag .n], 0xE0910002⟩, ⟨[.clearFlag .c], 0xE3F00000⟩]

theorem witness_RunInvariantKept : RunInvariant 0 sRun ∧ ∃ t, step sRun = .next t :=
  ⟨⟨by decide, by decide⟩, next_of (by decide)⟩

/-- Two calls of words of the class, with writes of the whole status word and of Q, which RunInvariant does not admit. -/
theorem witness_RunNeverRefused :
    let s := sRun.setInput [⟨[.status 0xFFFFFFFF, .clearFlag .q], 0xE0910002⟩, ⟨[.setFlag .q], 0xE3F00000⟩]
    (∀ c ∈ s.input, c.wordInClass = true) ∧ 2 ≤ s.input.length := by decide

/-- A register that is neither Rn nor in operand 2, the destination of the instruction or not; and Rn of MOV. -/
theorem witness_UnreadRegisterHasNoInfluence :
    (0 : RegId) ∉ reads (.sub .eq true 1 0 (.regReg 2 .lsl 3)) ∧ (7 : RegId) ∉ reads (.sub .eq true 1 0 (.regReg 2 .lsl 3)) ∧
    (5 : RegId) ∉ reads (.mov .al true 5 0 (.regImm 2 .lsl 3)) ∧
    (∃ t, exec (.sub .eq true 1 0 (.regReg 2 .lsl 3)) sW = .next t) ∧
    fault? (exec (.sub .eq true 1 15 (.regReg 2 .lsl 3)) sW) = some .illegalDestination :=
  ⟨by decide, by decide, by decide, next_of (by decide), by decide⟩

theorem witness_PortsHaveNoInfluence :
    let u := (sRun.setWrotePc true).setInput [⟨[.reg 15 8, .setFlag .n], 0xE0910002⟩]
    sRun.regs = u.regs ∧ sRun.cpsr = u.cpsr ∧ sRun.wrotePc ≠ u.wrotePc ∧ sRun.input ≠ u.input ∧ ∃ t, step sRun = .next t :=
  ⟨by decide, by decide, by decide, by decide, next_of (by decide)⟩

/-- Two operands of equal value and different carry-out; their two next states of MOVS differ, in C. -/
theorem witness_ShifterCarryOnlyInLogical :
    after (exec (.mov .al true 0 0 (.imm 0 0)) sW) 0 = some (0, 0b0110) ∧
    after (exec (.mov .al true 0 0 (.imm 8 0)) sW) 0 = some (0, 0b0100) ∧
    (resolve (.imm 0 0) sW).value = (resolve (.imm 8 0) sW).value ∧
    (resolve (.imm 0 0) sW).carry ≠ (resolve (.imm 8 0) sW).carry ∧
    opClass .mov = .logical ∧ Passes .al sW ∧ ∃ t, exec (.mov .al true 0 0 (.imm 8 0)) sW = .next t :=
  ⟨by decide, by decide, by decide, by decide, by decide, by decide, next_of (by decide)⟩

/-- Program P1 (section 3.2): the low sum carries, the high word takes it. -/
theorem witness_AddsThenAdcAddsWide :
    let s := st [(0, 0xFFFFFFFF), (1, 1), (2, 1)] 0
    ∃ t u, Passes .al s ∧ exec (.add .al true 0 0 (.regImm 2 .lsl 0)) s = .next t ∧
      Passes .al t ∧ exec (.adc .al false 1 1 (.regImm 3 .lsl 0)) t = .next u :=
  ⟨_, _, by decide, rfl, by decide, rfl⟩

end Sys2Proof.Tests
end

section
/-! PROOFS. The family of 10_state.md: the status register's contract (R25). -/

namespace Sys2Proof.Machine

theorem flagMask_eq_twoPow (f : Flag) : flagMask f = BitVec.twoPow 32 (flagPos f) := rfl

theorem isSet_iff_div_mod (w : Word) (f : Flag) : isSet w f = true ↔ w.toNat / 2 ^ flagPos f % 2 = 1 := by
  rw [isSet, BitVec.getLsbD, Nat.testBit_eq_decide_div_mod_eq, decide_eq_true_eq]

/-- `set(f)` leaves every bit but the flag's own untouched (R25). -/
theorem setFlag_bit_of_ne (w : Word) {f : Flag} {k : Nat} (h : k ≠ flagPos f) :
    (setFlag w f).getLsbD k = w.getLsbD k := by
  rw [setFlag_bit, decide_eq_false h, Bool.false_or]

/-- `clear(f)` leaves every bit but the flag's own untouched (R25). -/
theorem clearFlag_bit_of_ne (w : Word) {f : Flag} {k : Nat} (h : k ≠ flagPos f) :
    (clearFlag w f).getLsbD k = w.getLsbD k := by
  rw [clearFlag_bit, decide_eq_false h, Bool.not_false, Bool.true_and]

@[simp] theorem isSet_setFlag_same (w : Word) (f : Flag) : isSet (setFlag w f) f = true := by
  simp [isSet, setFlag_bit]

@[simp] theorem isSet_clearFlag_same (w : Word) (f : Flag) : isSet (clearFlag w f) f = false := by
  simp [isSet, clearFlag_bit]

/-- Settles O17. The masks are powers of two, so the bitwise updates are the stated ones; the frame for the other flags
is the frame for the other bits, since no two flags share a position. -/
theorem statusRegisterContract : Obligations.StatusRegisterContract := by
  intro w f
  have hmask := flagMask_eq_twoPow f
  have hbits : ∀ k, k ≠ flagPos f →
      (setFlag w f).getLsbD k = w.getLsbD k ∧ (clearFlag w f).getLsbD k = w.getLsbD k :=
    fun _ hk => ⟨setFlag_bit_of_ne w hk, clearFlag_bit_of_ne w hk⟩
  have hflags : ∀ g, g ≠ f → isSet (setFlag w f) g = isSet w g ∧ isSet (clearFlag w f) g = isSet w g :=
    fun g hg => hbits (flagPos g) (mt flagPos_inj.mp hg)
  exact ⟨by rw [setFlag, hmask], by rw [clearFlag, hmask], isSet_iff_div_mod w f, fun _ => rfl,
    isSet_setFlag_same w f, isSet_clearFlag_same w f, hbits, hflags⟩

end Sys2Proof.Machine
end

section
/-! PROOFS. The family of 30_encoding.md: the immediate operand (R50, R68). -/

namespace Sys2Proof.Machine

@[simp] theorem resolve_imm (rotate : Nat) (imm8 : BitVec 8) (s : State) :
    resolve (.imm rotate imm8) s = shiftImm8 rotate imm8 (s.flag .c) := rfl

/-- The bits of the rotated imm8; those read at position 8 or above are the zeros of the extension (R50). -/
theorem shiftImm8_value_bit (rotate : Nat) (imm8 : BitVec 8) (c : Bool) {k : Nat} (hk : k < 32) :
    (shiftImm8 rotate imm8 c).value.getLsbD k = imm8.getLsbD ((k + 2 * rotate) % 32) := by
  have hpos : (k + 2 * rotate) % 32 < 32 := Nat.mod_lt _ (by decide)
  calc (shiftImm8 rotate imm8 c).value.getLsbD k
      = (imm8.setWidth 32).getLsbD ((k + 2 * rotate) % 32) := ror_bit _ _ _ hk
    _ = imm8.getLsbD ((k + 2 * rotate) % 32) := by
      rw [BitVec.getLsbD_setWidth, decide_eq_true hpos, Bool.true_and]

/-- Rotate 0 leaves the carry as it was (R68). -/
theorem shiftImm8_carry_zero (imm8 : BitVec 8) (c : Bool) : (shiftImm8 0 imm8 c).carry = c := rfl

/-- A rotate other than 0 carries out the bit rotated into position 31 (R68). -/
theorem shiftImm8_carry_of_ne_zero {rotate : Nat} (imm8 : BitVec 8) (c : Bool) (h : rotate ≠ 0) :
    (shiftImm8 rotate imm8 c).carry = (shiftImm8 rotate imm8 c).value.getLsbD 31 := if_neg h

/-- Settles O10. The value is the rotation read bit by bit, and the carry has a case for rotate 0 and one for the rest;
none of them needs the bound on the rotate field. -/
theorem immediateOperand : Obligations.ImmediateOperand := by
  intro rotate imm8 s _
  simp only [resolve_imm]
  refine ⟨fun k hk => shiftImm8_value_bit rotate imm8 _ hk, ?_, ?_⟩
  · rintro rfl
    exact shiftImm8_carry_zero imm8 _
  · exact shiftImm8_carry_of_ne_zero imm8 _

end Sys2Proof.Machine
end

section
/-! PROOFS. The family of 41_shifter.md: the barrel shifter's immediate LSL, its last bit shifted out, and what its
carry-out can reach (R70, R71, R81). -/

namespace Sys2Proof.Machine

@[simp] theorem resolve_regImm (rm : RegId) (shift : ShiftType) (n : Nat) (s : State) :
    resolve (.regImm rm shift n) s = shiftByImmediate shift (s.reg rm) n (s.flag .c) := rfl

/-- The register form, with its amount as the low byte in arithmetic terms (R69). -/
@[simp] theorem resolve_regReg (rm : RegId) (shift : ShiftType) (rs : RegId) (s : State) :
    resolve (.regReg rm shift rs) s = shiftByRegister shift (s.reg rm) ((s.reg rs).toNat % 256) (s.flag .c) := by
  rw [← shiftAmount_eq]
  rfl

theorem shiftByImmediate_lsl_zero (v : Word) (c : Bool) : shiftByImmediate .lsl v 0 c = ⟨v, c⟩ := rfl

theorem shiftByImmediate_lsl (v : Word) (c : Bool) {n : Nat} (hn : n ≠ 0) :
    shiftByImmediate .lsl v n c = ⟨lsl v n, v.getLsbD (32 - n)⟩ := if_neg hn

theorem shiftByImmediate_lsr (v : Word) (c : Bool) {n : Nat} (hn : n ≠ 0) :
    shiftByImmediate .lsr v n c = ⟨lsr v n, v.getLsbD (n - 1)⟩ := if_neg hn

theorem shiftByImmediate_asr (v : Word) (c : Bool) {n : Nat} (hn : n ≠ 0) :
    shiftByImmediate .asr v n c = ⟨asr v n, v.getLsbD (n - 1)⟩ := if_neg hn

theorem shiftByImmediate_ror (v : Word) (c : Bool) {n : Nat} (hn : n ≠ 0) :
    shiftByImmediate .ror v n c = ⟨ror v n, v.getLsbD (n - 1)⟩ := if_neg hn

/-- By 1 to 31 positions the two amount forms shift alike; they differ at amount 0 and above 31 only. -/
theorem shiftByRegister_eq_shiftByImmediate (shift : ShiftType) (v : Word) (c : Bool) {n : Nat} (h1 : 1 ≤ n)
    (h31 : n ≤ 31) : shiftByRegister shift v n c = shiftByImmediate shift v n c := by
  have hne : n ≠ 0 := by omega
  have hlt : n < 32 := by omega
  have hmod : n % 32 = n := Nat.mod_eq_of_lt hlt
  cases shift <;> simp [shiftByRegister, shiftByImmediate, hne, hlt, hmod]

/-- The last bit out of each shift by 1 to 31 positions, and where ROR puts it (R70). -/
theorem shiftByImmediate_lastBitOut (v : Word) (c : Bool) {n : Nat} (h1 : 1 ≤ n) (h31 : n ≤ 31) :
    (shiftByImmediate .lsl v n c).carry = v.getLsbD (32 - n) ∧
    (shiftByImmediate .lsr v n c).carry = v.getLsbD (n - 1) ∧
    (shiftByImmediate .asr v n c).carry = v.getLsbD (n - 1) ∧
    (shiftByImmediate .ror v n c).carry = v.getLsbD (n - 1) ∧
    (shiftByImmediate .ror v n c).value.getLsbD 31 = v.getLsbD (n - 1) := by
  have hne : n ≠ 0 := by omega
  have hmod : n % 32 = n := Nat.mod_eq_of_lt (by omega)
  have hland : (ror v n).getLsbD 31 = v.getLsbD (n - 1) := by
    have hbit := ror_bit31 v n (by omega)
    rwa [hmod] at hbit
  rw [shiftByImmediate_lsl v c hne, shiftByImmediate_lsr v c hne, shiftByImmediate_asr v c hne,
    shiftByImmediate_ror v c hne]
  exact ⟨rfl, rfl, rfl, rfl, hland⟩

/-- Settles O11. Amount 0 passes the register and C through; any other amount is the shift itself. -/
theorem lslByImmediate : Obligations.LslByImmediate := by
  intro rm n s _
  simp only [resolve_regImm]
  refine ⟨?_, fun hn => ?_⟩
  · rintro rfl
    rw [shiftByImmediate_lsl_zero]
    exact ⟨rfl, rfl⟩
  · rw [shiftByImmediate_lsl _ _ (by omega)]
    exact ⟨lsl_toNat _ _, rfl⟩

/-- Settles O12. The register half is the immediate half, since the two forms shift alike by these amounts. -/
theorem carryIsLastBitShiftedOut : Obligations.CarryIsLastBitShiftedOut := by
  intro rm rs n s h1 h31
  have hout := shiftByImmediate_lastBitOut (s.reg rm) (s.flag .c) h1 h31
  refine ⟨hout, fun hn => ?_⟩
  simp only [resolve_regReg, hn, shiftByRegister_eq_shiftByImmediate _ _ _ h1 h31]
  exact hout

/-- With S = 0 a logical operation leaves the status word as it is (42_execute.md R89). -/
theorem logicalStatus_false (res : Word) (c : Bool) (w : Word) : logicalStatus false res c w = w := rfl

/-- The carry rule of the logical class: C is the shifter's carry-out (42_execute.md R91). -/
theorem aluCarry_logical {op : Opcode} (h : opClass op = .logical) (a b : Word) (c shifterCarry : Bool) :
    aluCarry op a b c shifterCarry = shifterCarry := by
  cases op with
  | and | eor | tst | teq | orr | mov | bic | mvn => rfl
  | add | adc | cmn | sub | rsb | sbc | rsc | cmp => cases h

section EqualValues

variable {o p : Operand2} {s : State}

/-- An arithmetic operation uses operand 2's value only (R81). -/
theorem arithToRd_congr_value (h : (resolve o s).value = (resolve p s).value) (f : Word → Word → Bool → Sum)
    (cond : Cond) (sf : Bool) (rn rd : RegId) : arithToRd f cond sf rn rd o s = arithToRd f cond sf rn rd p s := by
  rw [arithToRd, arithToRd, h]

theorem arithTest_congr_value (h : (resolve o s).value = (resolve p s).value) (f : Word → Word → Bool → Sum)
    (cond : Cond) (rn rd : RegId) : arithTest f cond rn rd o s = arithTest f cond rn rd p s := by
  rw [arithTest, arithTest, h]

/-- With S = 0 a logical operation uses operand 2's value only (R81). -/
theorem logicalToRd_congr_value (h : (resolve o s).value = (resolve p s).value) (f : Word → Word → Word)
    (cond : Cond) (rn rd : RegId) :
    logicalToRd f cond false rn rd o s = logicalToRd f cond false rn rd p s := by
  simp only [logicalToRd, logicalStatus_false, h]

end EqualValues

/-- With S = 1 a logical operation that ran leaves the shifter's carry-out in C (R81). -/
theorem exec_logical_flagC {i : Instr} {s t : State} (hclass : opClass i.opcode = .logical)
    (hset : i.setFlags = true) (hpass : Passes i.cond s) (hexec : exec i s = .next t) :
    t.flag .c = (resolve i.op2 s).carry := by
  rcases exec_next hexec with ⟨hfail, -⟩ | ⟨-, -, rfl⟩
  · exact absurd hpass hfail.not_passes
  · obtain ⟨-, -, hcarry, -⟩ := blockEffect_flags i.toDecoded s hset
    rw [hcarry, aluCarry_logical hclass]

/-- Settles O57. Every instruction has one of four shapes, and each shape says what it takes from operand 2: the
arithmetic ones the value, the logical ones with S = 0 the value, the logical ones with S = 1 the value and C. -/
theorem shifterCarryOnlyInLogical : Obligations.ShifterCarryOnlyInLogical := by
  intro cond sf rn rd o p s
  refine ⟨fun h => ?_, fun _ _ => exec_logical_flagC⟩
  have harith := fun f => arithToRd_congr_value h f cond sf rn rd
  have hcompare := fun f => arithTest_congr_value h f cond rn rd
  have hquiet := fun f => logicalToRd_congr_value h f cond rn rd
  have hlogical := fun f => logicalToRd_sameButCarry f cond true rn rd h
  have htest := fun f => logicalTest_sameButCarry f cond rn rd h
  simp only [exec, execSub, execRsb, execAdd, execAdc, execSbc, execRsc, execCmp, execCmn,
    execAnd, execEor, execOrr, execMov, execBic, execMvn, execTst, execTeq]
  exact ⟨harith _, harith _, harith _, harith _, harith _, harith _, hcompare _, hcompare _,
    hquiet _, hquiet _, hquiet _, hquiet _, hquiet _, hquiet _,
    hlogical _, hlogical _, hlogical _, hlogical _, hlogical _, hlogical _, htest _, htest _⟩

end Sys2Proof.Machine
end

section
/-! PROOFS. The family of 42_execute.md: what an instruction that ran does to the registers and the status word (R89 to
R92, R94, R96, R98). -/

namespace Sys2Proof.Machine

theorem opClass_eq_logical_iff_mem {op : Opcode} :
    opClass op = .logical ↔ op ∈ [.and, .eor, .tst, .teq, .orr, .mov, .bic, .mvn] := by
  cases op <;> decide

theorem opClass_eq_additive_iff_mem {op : Opcode} : opClass op = .additive ↔ op ∈ [.add, .adc, .cmn] := by
  cases op <;> decide

theorem writesRd_eq_true_iff_mem {op : Opcode} : writesRd op = true ↔
    op ∈ [.and, .eor, .sub, .rsb, .add, .adc, .sbc, .rsc, .orr, .mov, .bic, .mvn] := by
  cases op <;> decide

theorem writesRd_eq_false_iff_mem {op : Opcode} : writesRd op = false ↔ op ∈ [.tst, .teq, .cmp, .cmn] := by
  cases op <;> decide

/-- The carry rule of the additive class in exact sums; the carry-in is C for ADC and 0 for the others (R92). -/
theorem aluCarry_additive {op : Opcode} (h : opClass op = .additive) (a b : Word) (c shifterCarry : Bool) :
    aluCarry op a b c shifterCarry = true ↔
      2 ^ 32 ≤ a.toNat + b.toNat + (if op = .adc ∧ c = true then 1 else 0) := by
  cases op with
  | add | cmn => simp [aluCarry, carriesOut]
  | adc => cases c <;> simp [aluCarry, carriesOut]
  | and | eor | tst | teq | orr | mov | bic | mvn | sub | rsb | sbc | rsc | cmp => cases h

/-- The logical class leaves V alone (R91). -/
theorem aluOverflow_logical {op : Opcode} (h : opClass op = .logical) (a b res : Word) (v : Bool) :
    aluOverflow op a b res v = v := by
  cases op with
  | and | eor | tst | teq | orr | mov | bic | mvn => rfl
  | add | adc | cmn | sub | rsb | sbc | rsc | cmp => cases h

/-- No borrow with no borrow-in: m ≥ t (R94). -/
theorem noBorrow_false_iff {m t : Word} : noBorrow m t false = true ↔ t.toNat ≤ m.toNat := decide_eq_true_iff

/-- No borrow with a borrow-in: m > t (R94). -/
theorem noBorrow_true_iff {m t : Word} : noBorrow m t true = true ↔ t.toNat < m.toNat := decide_eq_true_iff

/-- The checks passed, so the instruction answers the block's effect (R82). -/
theorem exec_completes {i : Instr} {s : State} (hpass : Passes i.cond s) (hd : ¬ PcWithS i.setFlags i.rd) :
    exec i s = .next (blockEffect i.toDecoded s) := by
  rw [exec_eq_gate, gate_passes hpass hd]

/-- S = 1 with Rd = 15 is rejected once the condition has passed, whatever the operation (60_exceptions.md R117, D16). -/
theorem exec_illegalDestination {i : Instr} {s : State} (hpass : Passes i.cond s) (hd : PcWithS i.setFlags i.rd) :
    exec i s = .fault .illegalDestination := by
  rw [exec_eq_gate]
  rcases gate_cases i.cond i.setFlags i.rd s (blockEffect i.toDecoded s) with
    ⟨hnone, -⟩ | ⟨hfail, -⟩ | ⟨-, -, hfault⟩ | ⟨-, hnot, -⟩
  · rw [Passes, hnone] at hpass
    cases hpass
  · exact absurd hpass hfail.not_passes
  · exact hfault
  · exact absurd hd hnot

/-- The next state of an instruction whose condition passed is the block's effect. -/
theorem eq_blockEffect_of_exec_next {i : Instr} {s t : State} (hpass : Passes i.cond s) (hexec : exec i s = .next t) :
    t = blockEffect i.toDecoded s := by
  rcases exec_next hexec with ⟨hfail, -⟩ | ⟨-, -, ht⟩
  · exact absurd hpass hfail.not_passes
  · exact ht

/-- The four flags after an instruction with S = 1 that ran (R90 to R95). -/
theorem exec_flags {i : Instr} {s t : State} (hpass : Passes i.cond s) (hset : i.setFlags = true)
    (hexec : exec i s = .next t) :
    let res := aluResult i.opcode (s.reg i.rn) (resolve i.op2 s).value (s.flag .c)
    FlagsAre t (res.getLsbD 31) (res == 0#32)
      (aluCarry i.opcode (s.reg i.rn) (resolve i.op2 s).value (s.flag .c) (resolve i.op2 s).carry)
      (aluOverflow i.opcode (s.reg i.rn) (resolve i.op2 s).value res (s.flag .v)) := by
  rw [eq_blockEffect_of_exec_next hpass hexec]
  exact blockEffect_flags i.toDecoded s hset

/-- An error of the block leaves the whole state but the output `wrote_pc` as it was (60_exceptions.md R118). -/
theorem blockExecute_error (d : DecodedInstruction) (s : State) :
    (blockExecute d s).1 ≠ .ok → (blockExecute d s).2 = s.setWrotePc false := by
  unfold blockExecute
  rcases s.evaluate d.cond with _ | _ | _
  · exact fun _ => rfl
  · exact fun hok => absurd rfl hok
  · simp only
    split
    · exact fun _ => rfl
    · exact fun hok => absurd rfl hok

/-- Settles O20. An instruction that answers a next state either failed its condition, and the status word stands, or had
the block's effect, which keeps the reserved bits, and the whole word when S = 0. -/
theorem flagsOnlyWithS : Obligations.FlagsOnlyWithS := by
  refine ⟨fun i s t hexec => ?_, fun d s herr => ?_⟩
  · rcases exec_next hexec with ⟨-, rfl⟩ | ⟨hpass, -, rfl⟩
    · exact ⟨fun _ _ _ => rfl, fun _ => rfl, fun _ => rfl⟩
    · exact ⟨blockEffect_reserved i.toDecoded s, blockEffect_keepsStatus i.toDecoded s,
        fun hnot => absurd hpass hnot⟩
  · rw [blockExecute_error d s herr, setWrotePc_cpsr]

/-- Settles O21. The flag rules of the block take N and Z from the operation table's result for every operation. -/
theorem negativeAndZeroFromResult : Obligations.NegativeAndZeroFromResult := by
  intro i s t hpass hset hexec
  obtain ⟨hn, hz, -, -⟩ := exec_flags hpass hset hexec
  exact ⟨hn, by rw [hz]; exact beq_iff_eq⟩

/-- Settles O22. Both flags are read off the rules of the logical class. -/
theorem logicalCarryAndOverflow : Obligations.LogicalCarryAndOverflow := by
  intro i s t hop hpass hset hexec
  have hclass := opClass_eq_logical_iff_mem.mpr hop
  obtain ⟨-, -, -, hv⟩ := exec_flags hpass hset hexec
  exact ⟨exec_logical_flagC hclass hset hpass hexec, by rw [hv, aluOverflow_logical hclass]⟩

/-- Settles O23. C is the carry rule of the additive class, which compares the exact sum with 2^32. -/
theorem additiveCarry : Obligations.AdditiveCarry := by
  intro i s t hop hpass hset hexec
  obtain ⟨-, -, hc, -⟩ := exec_flags hpass hset hexec
  rw [hc]
  exact aluCarry_additive (opClass_eq_additive_iff_mem.mpr hop) _ _ _ _

/-- Settles O24. C is the no-borrow rule with the minuend of each operation; the borrow-in is 0 for SUB, CMP and RSB, and
the complement of C for SBC and RSC. -/
theorem subtractiveCarry : Obligations.SubtractiveCarry := by
  intro i s t hpass hset hexec
  obtain ⟨-, -, hc, -⟩ := exec_flags hpass hset hexec
  rw [hc]
  refine ⟨?_, ?_, ?_, ?_, ?_, ?_⟩
  · rintro (hop | hop) <;> rw [hop]
    · exact noBorrow_false_iff
    · exact noBorrow_false_iff
  · intro hop
    rw [hop]
    exact noBorrow_false_iff
  · intro hop hcarry
    rw [hop, hcarry]
    exact noBorrow_false_iff
  · intro hop hcarry
    rw [hop, hcarry]
    exact noBorrow_true_iff
  · intro hop hcarry
    rw [hop, hcarry]
    exact noBorrow_false_iff
  · intro hop hcarry
    rw [hop, hcarry]
    exact noBorrow_true_iff

/-- Settles O42. The block's effect has the register frame of the operation's "writes Rd" column. -/
theorem registerWrites : Obligations.RegisterWrites := by
  intro i s hpass
  refine ⟨fun hop => ⟨fun hd => ?_, exec_illegalDestination hpass⟩, fun hop t hexec => ?_⟩
  · exact ⟨_, exec_completes hpass hd, blockEffect_writesOnly i.toDecoded s (writesRd_eq_true_iff_mem.mpr hop)⟩
  · rw [eq_blockEffect_of_exec_next hpass hexec]
    exact blockEffect_writesNothing i.toDecoded s (writesRd_eq_false_iff_mem.mpr hop)

/-- Settles O43. R15 is written like any other register; S alone decides between the write and the rejection. -/
theorem pcDestinationIsPlainWrite : Obligations.PcDestinationIsPlainWrite := by
  intro i s hwrites hrd hpass
  refine ⟨fun hset => ?_, fun hset => exec_illegalDestination hpass ⟨hset, hrd⟩⟩
  have hd : ¬ PcWithS i.setFlags i.rd := by simp [hset]
  refine ⟨_, exec_completes hpass hd, ?_, blockEffect_keepsStatus i.toDecoded s hset⟩
  rw [← hrd]
  exact blockEffect_writesOnly i.toDecoded s hwrites

end Sys2Proof.Machine
end

section
/-! PROOFS. The family of 43_logical.md: the six logical operations that write Rd, each with its word, its result, its
flags and its frame (R99 to R104). -/

namespace Sys2Proof.Machine

theorem regBits_toNat (r : RegId) : (regBits r).toNat = r.val := by
  rw [regBits, BitVec.toNat_ofNat, Nat.mod_eq_of_lt r.isLt]

/-- The word of an instruction has its opcode, its class, its S bit and its registers (30_encoding.md R42, R48). -/
theorem hasOpcodeBits (i : Instr) : HasOpcodeBits i (opcodeCode i.opcode) := by
  have hrn : field (encode i) 16 4 = regBits i.rn := field_encode_rn _
  have hrd : field (encode i) 12 4 = regBits i.rd := field_encode_rd _
  exact ⟨field_encode_opcode _, field_encode_class _, bit_encode_setFlags _,
    (congrArg BitVec.toNat hrn).trans (regBits_toNat _), (congrArg BitVec.toNat hrd).trans (regBits_toNat _)⟩

/-- The status word after the block's effect, with the carry and overflow rules of the operation (42_execute.md R89 to
R95). -/
theorem blockEffect_statusAfter (d : DecodedInstruction) (s : State) :
    let res := aluResult d.opcode (s.reg d.rn) (resolve d.op2 s).value (s.flag .c)
    StatusAfter d.setFlags s (blockEffect d s) (res.getLsbD 31) (res == 0#32)
      (aluCarry d.opcode (s.reg d.rn) (resolve d.op2 s).value (s.flag .c) (resolve d.op2 s).carry)
      (aluOverflow d.opcode (s.reg d.rn) (resolve d.op2 s).value res (s.flag .v)) :=
  ⟨blockEffect_reserved d s, blockEffect_flags d s, blockEffect_keepsStatus d s⟩

/-- A logical operation that writes Rd completes with the result of the operation table, the shifter's carry-out in C
and V unchanged (R91, R96). -/
theorem exec_logicalRd_completes {i : Instr} {s : State} (hclass : opClass i.opcode = .logical)
    (hwrites : writesRd i.opcode = true) (hpass : Passes i.cond s) (hd : ¬ PcWithS i.setFlags i.rd) :
    let res := aluResult i.opcode (s.reg i.rn) (resolve i.op2 s).value (s.flag .c)
    ∃ t, exec i s = .next t ∧ WritesOnly i.rd res s t ∧
      StatusAfter i.setFlags s t (res.getLsbD 31) (res == 0#32) (resolve i.op2 s).carry (s.flag .v) := by
  have hstatus := blockEffect_statusAfter i.toDecoded s
  simp only [aluCarry_logical hclass, aluOverflow_logical hclass] at hstatus
  exact ⟨_, exec_completes hpass hd, blockEffect_writesOnly i.toDecoded s hwrites, hstatus⟩

/-- Settles O26. AND is a logical operation that writes Rd, and its row of the operation table is op1 & op2. -/
theorem andCompletes : Obligations.AndCompletes := fun cond sf rn rd op2 _ hpass hd =>
  ⟨hasOpcodeBits _, exec_logicalRd_completes (i := .and cond sf rn rd op2) rfl rfl hpass hd⟩

/-- Settles O27. The row of EOR in the operation table is op1 ^ op2. -/
theorem eorCompletes : Obligations.EorCompletes := fun cond sf rn rd op2 _ hpass hd =>
  ⟨hasOpcodeBits _, exec_logicalRd_completes (i := .eor cond sf rn rd op2) rfl rfl hpass hd⟩

/-- Settles O28. The row of ORR in the operation table is op1 | op2. -/
theorem orrCompletes : Obligations.OrrCompletes := fun cond sf rn rd op2 _ hpass hd =>
  ⟨hasOpcodeBits _, exec_logicalRd_completes (i := .orr cond sf rn rd op2) rfl rfl hpass hd⟩

/-- Settles O29. The row of MOV in the operation table is op2, so Rn has no part in the result. -/
theorem movCompletes : Obligations.MovCompletes := fun cond sf rn rd op2 _ hpass hd =>
  ⟨hasOpcodeBits _, exec_logicalRd_completes (i := .mov cond sf rn rd op2) rfl rfl hpass hd⟩

/-- Settles O30. The row of BIC in the operation table is op1 & ~op2. -/
theorem bicCompletes : Obligations.BicCompletes := fun cond sf rn rd op2 _ hpass hd =>
  ⟨hasOpcodeBits _, exec_logicalRd_completes (i := .bic cond sf rn rd op2) rfl rfl hpass hd⟩

/-- Settles O31. The row of MVN in the operation table is ~op2; the carry is still the one operand 2 was resolved with. -/
theorem mvnCompletes : Obligations.MvnCompletes := fun cond sf rn rd op2 _ hpass hd =>
  ⟨hasOpcodeBits _, exec_logicalRd_completes (i := .mvn cond sf rn rd op2) rfl rfl hpass hd⟩

end Sys2Proof.Machine
end

section
/-! PROOFS. The family of 44_arithmetic.md: the six arithmetic operations that write Rd, each with its word, its result,
its flags and its frame (R105 to R110). The rules of the block give the carry-in as a Bool, the statements as a number. -/

namespace Sys2Proof.Machine

theorem bitWord_eq_ofNat (c : Bool) : bitWord c = BitVec.ofNat 32 (if c then 1 else 0) := by
  cases c <;> rfl

theorem bitWord_not_eq_ofNat (c : Bool) : bitWord (!c) = BitVec.ofNat 32 (1 - if c then 1 else 0) := by
  cases c <;> rfl

/-- The carry of an addition with the carry-in as a number (42_execute.md R92). -/
theorem carriesOut_eq_decide (a b : Word) (c : Bool) :
    carriesOut a b c = decide (2 ^ 32 ≤ a.toNat + b.toNat + if c then 1 else 0) := by
  cases c <;> rfl

/-- The carry of a subtraction with the borrow-in 1 − C as a number (R94). -/
theorem noBorrow_not_eq_decide (m t : Word) (c : Bool) :
    noBorrow m t (!c) = decide (t.toNat + (1 - if c then 1 else 0) ≤ m.toNat) := by
  cases c <;> rfl

/-- An operation that writes Rd completes with the result of the operation table and the flags of its class (R87 to
R96). -/
theorem exec_rd_completes {i : Instr} {s : State} (hwrites : writesRd i.opcode = true) (hpass : Passes i.cond s)
    (hd : ¬ PcWithS i.setFlags i.rd) :
    let a := s.reg i.rn
    let b := (resolve i.op2 s).value
    let res := aluResult i.opcode a b (s.flag .c)
    ∃ t, exec i s = .next t ∧ WritesOnly i.rd res s t ∧
      StatusAfter i.setFlags s t (res.getLsbD 31) (res == 0#32)
        (aluCarry i.opcode a b (s.flag .c) (resolve i.op2 s).carry) (aluOverflow i.opcode a b res (s.flag .v)) :=
  ⟨_, exec_completes hpass hd, blockEffect_writesOnly i.toDecoded s hwrites, blockEffect_statusAfter i.toDecoded s⟩

/-- Settles O32. SUB is op1 - op2 in the operation table, with minuend op1 and no borrow-in. -/
theorem subCompletes : Obligations.SubCompletes := fun cond sf rn rd op2 _ hpass hd =>
  ⟨hasOpcodeBits _, exec_rd_completes (i := .sub cond sf rn rd op2) rfl hpass hd⟩

/-- Settles O33. RSB is op2 - op1 in the operation table, with minuend op2 and no borrow-in. -/
theorem rsbCompletes : Obligations.RsbCompletes := fun cond sf rn rd op2 _ hpass hd =>
  ⟨hasOpcodeBits _, exec_rd_completes (i := .rsb cond sf rn rd op2) rfl hpass hd⟩

/-- Settles O34. ADD is op1 + op2 in the operation table, with no carry-in. -/
theorem addCompletes : Obligations.AddCompletes := fun cond sf rn rd op2 _ hpass hd =>
  ⟨hasOpcodeBits _, exec_rd_completes (i := .add cond sf rn rd op2) rfl hpass hd⟩

/-- Settles O35. ADC is op1 + op2 + C in the operation table, and C is the carry-in of the exact sum too. -/
theorem adcCompletes : Obligations.AdcCompletes := by
  intro cond sf rn rd op2 s hpass hd
  have hrun := exec_rd_completes (i := .adc cond sf rn rd op2) rfl hpass hd
  simp only [Instr.opcode, aluResult, aluCarry, bitWord_eq_ofNat, carriesOut_eq_decide] at hrun
  exact ⟨hasOpcodeBits _, hrun⟩

/-- Settles O36. SBC is op1 - op2 - (1 - C) in the operation table, and 1 - C is the borrow-in of minuend op1. -/
theorem sbcCompletes : Obligations.SbcCompletes := by
  intro cond sf rn rd op2 s hpass hd
  have hrun := exec_rd_completes (i := .sbc cond sf rn rd op2) rfl hpass hd
  simp only [Instr.opcode, aluResult, aluCarry, bitWord_not_eq_ofNat, noBorrow_not_eq_decide] at hrun
  exact ⟨hasOpcodeBits _, hrun⟩

/-- Settles O37. RSC is op2 - op1 - (1 - C) in the operation table, and 1 - C is the borrow-in of minuend op2. -/
theorem rscCompletes : Obligations.RscCompletes := by
  intro cond sf rn rd op2 s hpass hd
  have hrun := exec_rd_completes (i := .rsc cond sf rn rd op2) rfl hpass hd
  simp only [Instr.opcode, aluResult, aluCarry, bitWord_not_eq_ofNat, noBorrow_not_eq_decide] at hrun
  exact ⟨hasOpcodeBits _, hrun⟩

end Sys2Proof.Machine
end

section
/-! PROOFS. The family of 45_compare.md: the four operations that only set flags, each with its word, the flags of its
discarded result and its frame (R111 to R114). -/

namespace Sys2Proof.Machine

/-- An operation that does not write Rd completes, when Rd is not R15, with no register written and the flags that its
row of the operation table gives the discarded result (42_execute.md R87 to R96, 60_exceptions.md R117). -/
theorem exec_test_completes {i : Instr} {s : State} (hwrites : writesRd i.opcode = false) (hpass : Passes i.cond s)
    (hrd : i.rd ≠ pcReg) :
    let a := s.reg i.rn
    let b := (resolve i.op2 s).value
    let res := aluResult i.opcode a b (s.flag .c)
    ∃ t, exec i s = .next t ∧ WritesNothing s t ∧
      StatusAfter i.setFlags s t (res.getLsbD 31) (res == 0#32)
        (aluCarry i.opcode a b (s.flag .c) (resolve i.op2 s).carry) (aluOverflow i.opcode a b res (s.flag .v)) :=
  have hd : ¬ PcWithS i.setFlags i.rd := fun hpc => hrd hpc.right
  ⟨_, exec_completes hpass hd, blockEffect_writesNothing i.toDecoded s hwrites, blockEffect_statusAfter i.toDecoded s⟩

/-- Settles O38. TST is op1 & op2 in the operation table, with the carry and overflow rules of the logical class. -/
theorem tstCompletes : Obligations.TstCompletes := fun cond rn rd op2 _ hpass hrd =>
  ⟨hasOpcodeBits _, bit_encode_setFlags _, exec_test_completes (i := .tst cond rn rd op2) rfl hpass hrd⟩

/-- Settles O39. TEQ is op1 ^ op2 in the operation table, with the carry and overflow rules of the logical class. -/
theorem teqCompletes : Obligations.TeqCompletes := fun cond rn rd op2 _ hpass hrd =>
  ⟨hasOpcodeBits _, bit_encode_setFlags _, exec_test_completes (i := .teq cond rn rd op2) rfl hpass hrd⟩

/-- Settles O40. CMP is op1 - op2 in the operation table, with minuend op1 and no borrow-in. -/
theorem cmpCompletes : Obligations.CmpCompletes := fun cond rn rd op2 _ hpass hrd =>
  ⟨hasOpcodeBits _, bit_encode_setFlags _, exec_test_completes (i := .cmp cond rn rd op2) rfl hpass hrd⟩

/-- Settles O41. CMN is op1 + op2 in the operation table, with no carry-in. -/
theorem cmnCompletes : Obligations.CmnCompletes := fun cond rn rd op2 _ hpass hrd =>
  ⟨hasOpcodeBits _, bit_encode_setFlags _, exec_test_completes (i := .cmn cond rn rd op2) rfl hpass hrd⟩

end Sys2Proof.Machine
end

section
/-! PROOFS. The encoding: decode and encode are inverse to each other on the data-processing class, the class bit by bit,
and the fields of a word in arithmetic terms (30_encoding.md R42 to R49, R52, R55). -/

namespace Sys2Proof

theorem instrOfDecoded_toDecoded (i : Instr) : instrOfDecoded i.toDecoded = i := by
  cases i <;> rfl

/-- Two fields side by side are one field. -/
theorem field_append_field (w : Word) {hi lo m : Nat} (n : Nat) (h : hi = lo + m) :
    field w hi n ++ field w lo m = field w lo (n + m) :=
  BitVec.extractLsb'_append_extractLsb'_eq_extractLsb' h

/-- A single bit as a field of width 1. -/
theorem ofBool_getLsbD_eq_field (w : Word) (k : Nat) : BitVec.ofBool (w.getLsbD k) = field w k 1 := by
  apply BitVec.eq_of_getLsbD_eq
  intro j hj
  obtain rfl : j = 0 := by omega
  rw [field_bit]
  change (BitVec.ofBool (w.getLsbD k)).getLsbD 0 = w.getLsbD k
  cases w.getLsbD k <;> rfl

theorem field_toNat (w : Word) (lo len : Nat) : (field w lo len).toNat = w.toNat / 2 ^ lo % 2 ^ len := by
  rw [field, BitVec.extractLsb'_toNat, Nat.shiftRight_eq_div_pow]

theorem getLsbD_iff_div_mod (w : Word) (k : Nat) : w.getLsbD k = true ↔ w.toNat / 2 ^ k % 2 ^ 1 = 1 := by
  rw [BitVec.getLsbD, Nat.testBit_eq_decide_div_mod_eq, decide_eq_true_eq, Nat.pow_one]

/-- A slice above the lower part of two words put together is a slice of the upper part. -/
theorem extractLsb'_append_high {a b : Nat} (x : BitVec a) (y : BitVec b) (k len : Nat) :
    (x ++ y).extractLsb' (b + k) len = x.extractLsb' k len := by
  rw [BitVec.extractLsb'_append_eq_of_le (by omega), Nat.add_sub_cancel_left]

/-- The sub-fields of the immediate form's bits (R44, R52). -/
theorem operand2Bits_imm_fields (rotate : Nat) (imm8 : BitVec 8) :
    (operand2Bits (.imm rotate imm8)).extractLsb' 0 8 = imm8 ∧
    (operand2Bits (.imm rotate imm8)).extractLsb' 8 4 = BitVec.ofNat 4 rotate :=
  ⟨BitVec.extractLsb'_append_eq_right, BitVec.extractLsb'_append_eq_left⟩

/-- The sub-fields of the immediate-amount form's bits (R45, R52). -/
theorem operand2Bits_regImm_fields (rm : RegId) (shift : ShiftType) (amount : Nat) :
    (operand2Bits (.regImm rm shift amount)).extractLsb' 0 4 = regBits rm ∧
    (operand2Bits (.regImm rm shift amount)).extractLsb' 5 2 = shiftCode shift ∧
    (operand2Bits (.regImm rm shift amount)).extractLsb' 7 5 = BitVec.ofNat 5 amount := by
  have above := fun k len =>
    (extractLsb'_append_high (BitVec.ofNat 5 amount ++ shiftCode shift ++ 0#1) (regBits rm) (1 + k) len).trans
      (extractLsb'_append_high _ _ k len)
  exact ⟨BitVec.extractLsb'_append_eq_right, (above 0 2).trans BitVec.extractLsb'_append_eq_right,
    (above 2 5).trans BitVec.extractLsb'_append_eq_left⟩

/-- The sub-fields of the register-amount form's bits (R45, R52). -/
theorem operand2Bits_regReg_fields (rm : RegId) (shift : ShiftType) (rs : RegId) :
    (operand2Bits (.regReg rm shift rs)).extractLsb' 0 4 = regBits rm ∧
    (operand2Bits (.regReg rm shift rs)).extractLsb' 5 2 = shiftCode shift ∧
    (operand2Bits (.regReg rm shift rs)).extractLsb' 8 4 = regBits rs := by
  have above := fun k len =>
    (extractLsb'_append_high (regBits rs ++ 0#1 ++ shiftCode shift ++ 1#1) (regBits rm) (1 + k) len).trans
      (extractLsb'_append_high _ _ k len)
  exact ⟨BitVec.extractLsb'_append_eq_right, (above 0 2).trans BitVec.extractLsb'_append_eq_right,
    (above (2 + 1) 4).trans ((extractLsb'_append_high _ _ 1 4).trans BitVec.extractLsb'_append_eq_left)⟩

/-- An operand 2 whose fields fit their bits reads back from its word (R44, R45, R52). -/
theorem operand2OfWord_encodeFields (d : DecodedInstruction) (h : d.op2.wellFormed = true) :
    operand2OfWord (encodeFields d) = d.op2 := by
  have hfield := field_encode_op2 d
  unfold operand2OfWord
  rw [bit_encode_isImm, bit_encode_op2 d 4 (by decide)]
  cases hop : d.op2 with
  | imm rotate imm8 =>
    have hr : rotate < 16 := by simpa [hop, Operand2.wellFormed] using h
    obtain ⟨h0, h8⟩ := operand2Bits_imm_fields rotate imm8
    rw [hfield 0 8 (by decide), hfield 8 4 (by decide), hop, h0, h8, BitVec.toNat_ofNat, Nat.mod_eq_of_lt hr]
    rfl
  | regImm rm shift amount =>
    have hn : amount < 32 := by simpa [hop, Operand2.wellFormed] using h
    obtain ⟨h0, h5, h7⟩ := operand2Bits_regImm_fields rm shift amount
    rw [hfield 0 4 (by decide), hfield 5 2 (by decide), hfield 7 5 (by decide), hop, operand2Bits_regImm_bit4, h0, h5,
      h7, BitVec.toNat_ofNat, Nat.mod_eq_of_lt hn, regOfBits_regBits, shiftOfCode_shiftCode]
    rfl
  | regReg rm shift rs =>
    obtain ⟨h0, h5, h8⟩ := operand2Bits_regReg_fields rm shift rs
    rw [hfield 0 4 (by decide), hfield 5 2 (by decide), hfield 8 4 (by decide), hop, operand2Bits_regReg_bit4, h0, h5,
      h8, regOfBits_regBits, regOfBits_regBits, shiftOfCode_shiftCode]
    rfl

/-- The block's reading of an encoded word is the fields it was written from. -/
theorem decodeFields_encodeFields (d : DecodedInstruction) (h : d.op2.wellFormed = true) :
    decodeFields (encodeFields d) = d := by
  simp only [decodeFields, field_encode_cond, field_encode_opcode, field_encode_rn, field_encode_rd,
    bit_encode_setFlags, operand2OfWord_encodeFields d h, condOfCode_condCode, opcodeOfCode_opcodeCode,
    regOfBits_regBits]

/-- The word of every instruction is of the class: a compare has S = 1 in it (R52, R55). -/
theorem isDPClass_encode (i : Instr) : isDPClass (encode i) = true := by
  apply isDPClass_encodeFields
  cases i with
  | tst | teq | cmp | cmn => exact .inl rfl
  | and | eor | sub | rsb | add | adc | sbc | rsc | orr | mov | bic | mvn => exact .inr rfl

theorem decodeWord_encode (i : Instr) (h : i.WellFormed) : decodeWord (encode i) = .ok i := by
  rw [decodeWord_class (isDPClass_encode i), encode, decodeFields_encodeFields _ h, instrOfDecoded_toDecoded]

/-- Settles O1. A word's bytes decode as the word does, the fields of an encoded word read back as they were written, and
the instruction of an instruction's fields is that instruction. -/
theorem decodeOfEncode : Obligations.DecodeOfEncode := by
  intro i rest h
  rw [decode_wordBytes, decodeWord_encode i h]

/-- The decoder accepts the words of the class and no other (R55). -/
theorem exists_decodeWord_iff (w : Word) : (∃ i, decodeWord w = .ok i) ↔ isDPClass w = true := by
  refine ⟨?_, fun h => ⟨_, decodeWord_class h⟩⟩
  rintro ⟨i, h⟩
  rw [← classError_none]
  cases hc : classError w with
  | none => rfl
  | some e => simp [decodeWord, hc] at h

/-- `IsDPClass` in its three parts (R55). -/
theorem isDPClass_iff (w : Word) : isDPClass w = true ↔
    field w 26 2 = 0#2 ∧ ¬ (w.getLsbD 25 = false ∧ w.getLsbD 7 = true ∧ w.getLsbD 4 = true) ∧
      ¬ (field w 23 2 = 2#2 ∧ w.getLsbD 20 = false) := by
  simp only [isDPClass, Bool.and_eq_true, Bool.not_eq_true', beq_iff_eq, ← Bool.not_eq_true, and_assoc]
  rfl

/-- The two bits of a 2-bit field, low bit first. -/
theorem field_two_eq_iff (w : Word) (lo : Nat) (b : BitVec 2) :
    field w lo 2 = b ↔ w.getLsbD lo = b.getLsbD 0 ∧ w.getLsbD (lo + 1) = b.getLsbD 1 := by
  have hbit : ∀ j, j < 2 → (field w lo 2).getLsbD j = w.getLsbD (lo + j) := fun j hj => by
    rw [field_bit, decide_eq_true hj, Bool.true_and]
  constructor
  · rintro rfl
    exact ⟨(hbit 0 (by decide)).symm, (hbit 1 (by decide)).symm⟩
  · rintro ⟨h0, h1⟩
    apply BitVec.eq_of_getLsbD_eq
    intro j hj
    obtain rfl | rfl : j = 0 ∨ j = 1 := by omega
    · exact (hbit 0 hj).trans h0
    · exact (hbit 1 hj).trans h1

/-- Settles O4. The decoder accepts the class, and the two 2-bit fields that the class names are read bit by bit. -/
theorem decoderAcceptsExactlyTheClass : Obligations.DecoderAcceptsExactlyTheClass := by
  intro w
  have h26 : field w 26 2 = 0#2 ↔ w.getLsbD 26 = false ∧ w.getLsbD 27 = false := field_two_eq_iff w 26 0#2
  have h23 : field w 23 2 = 2#2 ↔ w.getLsbD 23 = false ∧ w.getLsbD 24 = true := field_two_eq_iff w 23 2#2
  rw [exists_decodeWord_iff, isDPClass_iff, h26, h23]
  tauto

theorem operand2OfWord_wellFormed (w : Word) : (operand2OfWord w).wellFormed = true := by
  unfold operand2OfWord
  split
  · exact decide_eq_true (field w 8 4).isLt
  · split
    · rfl
    · exact decide_eq_true (field w 7 5).isLt

theorem isImm_operand2OfWord (w : Word) : (operand2OfWord w).isImm = w.getLsbD 25 := by
  unfold operand2OfWord
  split
  · simp_all [Operand2.isImm]
  · split <;> simp_all [Operand2.isImm]

/-- Outside the multiply and transfer space, where bit 7 is not read, operand 2 keeps all of bits 11:0 (R52, D21). -/
theorem operand2Bits_operand2OfWord (w : Word)
    (h : ¬ (w.getLsbD 25 = false ∧ w.getLsbD 7 = true ∧ w.getLsbD 4 = true)) :
    operand2Bits (operand2OfWord w) = field w 0 12 := by
  have hbit := ofBool_getLsbD_eq_field w
  unfold operand2OfWord
  cases hI : w.getLsbD 25 with
  | true =>
    simp only [if_true, operand2Bits, BitVec.ofNat_toNat, BitVec.setWidth_eq]
    exact field_append_field w 4 rfl
  | false =>
    have h4 := hbit 4
    cases hR : w.getLsbD 4 with
    | true =>
      have h7 := hbit 7
      rw [hR] at h4
      rw [show w.getLsbD 7 = false by
        simpa only [hI, hR, true_and, and_true, Bool.not_eq_true] using h] at h7
      simp only [if_true, if_false, Bool.false_eq_true, operand2Bits, regBits_regOfBits, shiftCode_shiftOfCode]
      rw [show (0#1) = field w 7 1 from h7, show (1#1) = field w 4 1 from h4]
      simp only [field_append_field]
    | false =>
      rw [hR] at h4
      simp only [if_false, Bool.false_eq_true, operand2Bits, regBits_regOfBits, shiftCode_shiftOfCode,
        BitVec.ofNat_toNat, BitVec.setWidth_eq]
      rw [show (0#1) = field w 4 1 from h4]
      simp only [field_append_field]

/-- A word of the class is put together again from the fields the block reads (R42, R52). -/
theorem encodeFields_decodeFields {w : Word} (h : isDPClass w = true) : encodeFields (decodeFields w) = w := by
  obtain ⟨hclass, hop2, -⟩ := (isDPClass_iff w).mp h
  simp only [encodeFields, decodeFields, condCode_condOfCode, opcodeCode_opcodeOfCode, regBits_regOfBits,
    isImm_operand2OfWord, operand2Bits_operand2OfWord w hop2, ofBool_getLsbD_eq_field]
  rw [← hclass]
  simp only [field_append_field]
  exact BitVec.extractLsb'_eq_self

/-- Settles O2. The instruction has the fields the block reads from the word, and inside the class these are all of its
bits. -/
theorem encodeOfDecode : Obligations.EncodeOfDecode := by
  intro w i h
  have hfields := Machine.toDecoded_of_decodeWord h
  have hclass := (exists_decodeWord_iff w).mp ⟨i, h⟩
  refine ⟨?_, ?_⟩
  · rw [Instr.WellFormed, Instr.op2, hfields]
    exact operand2OfWord_wellFormed w
  · rw [encode, hfields, encodeFields_decodeFields hclass]

/-- The list of R49 numbers the conditions by their codes; so do those of R48 and R46 in the next two lemmas. -/
theorem condOfCode_eq_getElem (b : BitVec 4) :
    ([.eq, .ne, .cs, .cc, .mi, .pl, .vs, .vc, .hi, .ls, .ge, .lt, .gt, .le, .al, .reserved] : List Cond)[b.toNat]?
      = some (condOfCode b) := by
  revert b; decide

theorem opcodeOfCode_eq_getElem (b : BitVec 4) :
    ([.and, .eor, .sub, .rsb, .add, .adc, .sbc, .rsc, .tst, .teq, .cmp, .cmn, .orr, .mov, .bic, .mvn]
      : List Opcode)[b.toNat]? = some (opcodeOfCode b) := by
  revert b; decide

theorem shiftOfCode_eq_getElem (b : BitVec 2) :
    ([.lsl, .lsr, .asr, .ror] : List ShiftType)[b.toNat]? = some (shiftOfCode b) := by
  revert b; decide

theorem regOfBits_eq_ofNat (b : BitVec 4) : regOfBits b = Fin.ofNat 16 b.toNat :=
  Fin.ext (Nat.mod_eq_of_lt b.isLt).symm

/-- Settles O5. Each code is the field's number, and the code tables are the spec's lists. -/
theorem fieldsOfAWord : Obligations.FieldsOfAWord := by
  intro w
  simp only [← getLsbD_iff_div_mod]
  simp only [← field_toNat]
  refine ⟨condOfCode_eq_getElem _, opcodeOfCode_eq_getElem _, ?_, rfl, rfl, shiftOfCode (field w 5 2),
    shiftOfCode_eq_getElem _, ?_⟩
  · exact Iff.rfl
  · show operand2OfWord w = _
    rw [operand2OfWord]
    simp only [← regOfBits_eq_ofNat, BitVec.ofNat_toNat, BitVec.setWidth_eq]

/-- Settles O3. The words are literals, and the decoder computes. -/
theorem specWordsDecode : Obligations.SpecWordsDecode := by
  unfold Obligations.SpecWordsDecode
  decide

end Sys2Proof
end

section
/-! PROOFS. The barrel shifter over all amounts: LSR, ASR and ROR by an immediate amount, and the four shift types by a
register's low byte (41_shifter.md R72 to R79). Amounts 1 to 31 are the two forms' common ground. -/

namespace Sys2Proof.Machine

theorem shiftByImmediate_lsr_zero (v : Word) (c : Bool) : shiftByImmediate .lsr v 0 c = ⟨0, v.getLsbD 31⟩ := rfl

theorem shiftByImmediate_asr_zero (v : Word) (c : Bool) :
    shiftByImmediate .asr v 0 c = ⟨fill (v.getLsbD 31), v.getLsbD 31⟩ := rfl

/-- RRX puts C in position 31 (R74). -/
theorem shiftByImmediate_rrx_bit31 (v : Word) (c : Bool) :
    (shiftByImmediate .ror v 0 c).value.getLsbD 31 = c := by
  change (BitVec.ofBool c ++ v.extractLsb' 1 31).getLsbD 31 = c
  rw [BitVec.getLsbD_append]
  cases c <;> rfl

/-- RRX moves every other bit one position down (R74). -/
theorem shiftByImmediate_rrx_bit (v : Word) (c : Bool) {k : Nat} (hk : k < 31) :
    (shiftByImmediate .ror v 0 c).value.getLsbD k = v.getLsbD (k + 1) := by
  change (BitVec.ofBool c ++ v.extractLsb' 1 31).getLsbD k = v.getLsbD (k + 1)
  rw [BitVec.getLsbD_append, if_pos hk, BitVec.getLsbD_extractLsb', decide_eq_true hk, Bool.true_and, Nat.add_comm]

/-- Settles O13. Amount 0 is LSR #32, ASR #32 and RRX, each its own case of the shifter; any other amount is the shift
itself in arithmetic terms. -/
theorem lsrAsrRorByImmediate : Obligations.LsrAsrRorByImmediate := by
  intro rm n s _
  simp only [resolve_regImm]
  refine ⟨?_, fun hn => ?_⟩
  · rintro rfl
    rw [shiftByImmediate_lsr_zero, shiftByImmediate_asr_zero]
    exact ⟨⟨rfl, rfl⟩, ⟨fun k hk => fill_bit _ k hk, rfl⟩,
      shiftByImmediate_rrx_bit31 _ _, fun k hk => shiftByImmediate_rrx_bit _ _ hk, rfl⟩
  · have hne : n ≠ 0 := by omega
    rw [shiftByImmediate_lsr _ _ hne, shiftByImmediate_asr _ _ hne, shiftByImmediate_ror _ _ hne]
    exact ⟨⟨lsr_toNat _ _, rfl⟩, ⟨asr_toInt _ _, rfl⟩, fun k hk => ror_bit _ _ k hk, rfl⟩

/-- A register amount of 0 passes the value and C through, whatever the shift type (R75). -/
theorem shiftByRegister_zero (shift : ShiftType) (v : Word) (c : Bool) : shiftByRegister shift v 0 c = ⟨v, c⟩ := rfl

theorem shiftByRegister_lsl_32 (v : Word) (c : Bool) : shiftByRegister .lsl v 32 c = ⟨0, v.getLsbD 0⟩ := rfl

theorem shiftByRegister_lsr_32 (v : Word) (c : Bool) : shiftByRegister .lsr v 32 c = ⟨0, v.getLsbD 31⟩ := rfl

section LargeAmounts

variable (v : Word) (c : Bool) {n : Nat}

/-- LSL and LSR by more than 32 shift everything out, and zeros after it (R76, R77). -/
theorem shiftByRegister_lsl_above_32 (h : 33 ≤ n) : shiftByRegister .lsl v n c = ⟨0, false⟩ := by
  have hcases : n ≠ 0 ∧ ¬ n < 32 ∧ n ≠ 32 := by omega
  simp [shiftByRegister, hcases]

theorem shiftByRegister_lsr_above_32 (h : 33 ≤ n) : shiftByRegister .lsr v n c = ⟨0, false⟩ := by
  have hcases : n ≠ 0 ∧ ¬ n < 32 ∧ n ≠ 32 := by omega
  simp [shiftByRegister, hcases]

/-- ASR by 32 or more leaves copies of the sign bit (R78). -/
theorem shiftByRegister_asr_from_32 (h : 32 ≤ n) :
    shiftByRegister .asr v n c = ⟨fill (v.getLsbD 31), v.getLsbD 31⟩ := by
  have hcases : n ≠ 0 ∧ ¬ n < 32 := by omega
  simp [shiftByRegister, hcases]

/-- ROR by a multiple of 32 other than 0 leaves the value, with its top bit as the carry (R79). -/
theorem shiftByRegister_ror_of_mod_eq_zero (h : n ≠ 0) (hmod : n % 32 = 0) :
    shiftByRegister .ror v n c = ⟨v, v.getLsbD 31⟩ := by
  simp only [shiftByRegister, if_neg h, if_pos hmod]

theorem shiftByRegister_ror_of_mod_ne_zero (h : n ≠ 0) (hmod : n % 32 ≠ 0) :
    shiftByRegister .ror v n c = ⟨ror v (n % 32), v.getLsbD (n % 32 - 1)⟩ := by
  simp only [shiftByRegister, if_neg h, if_neg hmod]

end LargeAmounts

/-- Settles O14. Amount 0 passes through, 1 to 31 is the immediate shift, 32 shifts out bit 0 last, and more leaves
nothing. -/
theorem lslByRegister : Obligations.LslByRegister := by
  intro rm rs s
  simp only [resolve_regReg]
  generalize (s.reg rs).toNat % 256 = n
  refine ⟨?_, fun h1 h31 => ?_, ?_, fun h33 => ?_⟩
  · rintro rfl
    rw [shiftByRegister_zero]
    exact ⟨rfl, rfl⟩
  · rw [shiftByRegister_eq_shiftByImmediate _ _ _ h1 h31, shiftByImmediate_lsl _ _ (by omega)]
    exact ⟨lsl_toNat _ _, rfl⟩
  · rintro rfl
    rw [shiftByRegister_lsl_32]
    exact ⟨rfl, rfl⟩
  · rw [shiftByRegister_lsl_above_32 _ _ h33]
    exact ⟨rfl, rfl⟩

/-- Settles O15. As for LSL, with bit 31 shifted out last by amount 32. -/
theorem lsrByRegister : Obligations.LsrByRegister := by
  intro rm rs s
  simp only [resolve_regReg]
  generalize (s.reg rs).toNat % 256 = n
  refine ⟨?_, fun h1 h31 => ?_, ?_, fun h33 => ?_⟩
  · rintro rfl
    rw [shiftByRegister_zero]
    exact ⟨rfl, rfl⟩
  · rw [shiftByRegister_eq_shiftByImmediate _ _ _ h1 h31, shiftByImmediate_lsr _ _ (by omega)]
    exact ⟨lsr_toNat _ _, rfl⟩
  · rintro rfl
    rw [shiftByRegister_lsr_32]
    exact ⟨rfl, rfl⟩
  · rw [shiftByRegister_lsr_above_32 _ _ h33]
    exact ⟨rfl, rfl⟩

/-- Settles O16. ASR fills with the sign from 32 on; ROR depends on the amount modulo 32, and amounts equal modulo 32
rotate alike. -/
theorem asrRorByRegister : Obligations.AsrRorByRegister := by
  intro rm rs s
  simp only [resolve_regReg]
  generalize (s.reg rs).toNat % 256 = n
  refine ⟨?_, fun h1 h31 => ?_, fun h32 => ?_, fun hn hmod => ?_, fun hn hmod => ?_⟩
  · rintro rfl
    exact ⟨shiftByRegister_zero _ _ _, shiftByRegister_zero _ _ _⟩
  · rw [shiftByRegister_eq_shiftByImmediate _ _ _ h1 h31, shiftByImmediate_asr _ _ (by omega)]
    exact ⟨asr_toInt _ _, rfl⟩
  · rw [shiftByRegister_asr_from_32 _ _ h32]
    exact ⟨fun k hk => fill_bit _ k hk, rfl⟩
  · rw [shiftByRegister_ror_of_mod_eq_zero _ _ hn hmod]
    exact ⟨rfl, rfl⟩
  · rw [shiftByRegister_ror_of_mod_ne_zero _ _ hn hmod]
    refine ⟨fun k hk => ?_, rfl⟩
    rw [ror_bit _ _ k hk, Nat.add_mod_mod]

end Sys2Proof.Machine
end

section
/-! PROOFS. The flags and the conditions in arithmetic terms: the truth table, the conditions after a CMP, V as the
signed range, and the carry chain of ADDS and ADC (10_state.md R23, R24; 40_condition.md R61; 42_execute.md R92 to R95;
70_reset_and_hazards.md). -/

namespace Sys2Proof.Machine

/-- Only the reserved encoding has no truth value (R62). -/
theorem evaluate_eq_none_iff (s : State) (cond : Cond) : s.evaluate cond = none ↔ cond = .reserved := by
  cases cond <;> simp [State.evaluate, Machine.evaluate]

theorem failsCond_iff (s : State) (cond : Cond) : FailsCond cond s ↔ (cond ≠ .reserved ∧ ¬ Passes cond s) := by
  rw [ne_eq, ← evaluate_eq_none_iff s]
  rcases h : s.evaluate cond with _ | _ | _ <;> simp [FailsCond, Passes, h]

/-- Settles O8. A failed condition is one that neither passes nor is reserved; each row of the table is the evaluator's
own case. -/
theorem conditionTruthTable : Obligations.ConditionTruthTable := by
  intro s
  refine ⟨failsCond_iff s, rfl, ?_⟩
  simp [Passes, State.evaluate, Machine.evaluate]

/-- Settles O18. A flag is the bit at its position. -/
theorem flagPositions : Obligations.FlagPositions := fun _ => ⟨rfl, rfl, rfl, rfl, rfl⟩

/-- A bit outside N, Z, C and V is at the position of no flag but Q. -/
theorem ne_flagPos_of_not_isNZCVBit {k : Nat} {f : Flag} (hk : ¬ isNZCVBit k) (hf : f ≠ .q) : k ≠ flagPos f := by
  obtain ⟨hn, hz, hc, hv⟩ := not_isNZCVBit hk
  cases f with
  | n => exact hn
  | z => exact hz
  | c => exact hc
  | v => exact hv
  | q => exact absurd rfl hf

/-- Settles O19. The instructions' half is part of FlagsOnlyWithS; a set or clear touches its own flag's bit only. -/
theorem reservedBitsPreserved : Obligations.ReservedBitsPreserved := by
  refine ⟨fun i s t hexec => (flagsOnlyWithS.left i s t hexec).left, fun w f k hf hk => ?_⟩
  have hne := ne_flagPos_of_not_isNZCVBit hk hf
  exact ⟨setFlag_bit_of_ne w hne, clearFlag_bit_of_ne w hne⟩

/-- The value lies outside the signed 32-bit range. -/
def OutsideSigned (x : Int) : Prop := x < -2 ^ 31 ∨ 2 ^ 31 ≤ x

/-- The sign rule of an addition with carry-in is the exact signed range (R93). -/
theorem addOverflows_adc_iff (a b : Word) (c : Bool) :
    addOverflows a b (a + b + bitWord c) = true ↔ OutsideSigned (a.toInt + b.toInt + if c then 1 else 0) := by
  rw [← addWithCarry_adc, ← addWithCarry_addOverflow, addWithCarry_overflow]
  cases c <;> rfl

theorem addOverflows_add_iff (a b : Word) :
    addOverflows a b (a + b) = true ↔ OutsideSigned (a.toInt + b.toInt) := by
  rw [← addWithCarry_add, ← addWithCarry_addOverflow, addWithCarry_overflow, Bool.toNat_false, Nat.cast_zero,
    Int.add_zero]
  rfl

/-- The sign rule of a subtraction with borrow-in 1 − C is the exact signed range (R95). -/
theorem subOverflows_sbc_iff (m t : Word) (c : Bool) :
    subOverflows m t (m - t - bitWord (!c)) = true ↔
      OutsideSigned (m.toInt - t.toInt - (1 - if c then 1 else 0)) := by
  rw [← addWithCarry_sbc, ← addWithCarry_subOverflow, addWithCarry_subRange]
  cases c <;> rfl

theorem subOverflows_sub_iff (m t : Word) :
    subOverflows m t (m - t) = true ↔ OutsideSigned (m.toInt - t.toInt) := by
  rw [← addWithCarry_sub, ← addWithCarry_subOverflow, addWithCarry_subRange, Bool.not_true, Bool.toNat_false,
    Nat.cast_zero, Int.sub_zero]
  rfl

/-- Settles O25. V is the sign rule of the operation's class on the operation table's result, and each sign rule is the
signed range of the exact result. -/
theorem overflowIsSignedRange : Obligations.OverflowIsSignedRange := by
  intro i s t hclass hpass hset hexec
  obtain ⟨-, -, -, hv⟩ := exec_flags hpass hset hexec
  rw [hv]
  cases i with
  | and | eor | tst | teq | orr | mov | bic | mvn => exact absurd rfl hclass
  | add | cmn => exact addOverflows_add_iff _ _
  | adc => exact addOverflows_adc_iff _ _ _
  | sub | cmp | rsb => exact subOverflows_sub_iff _ _
  | sbc | rsc => exact subOverflows_sbc_iff _ _ _

/-- The sign bit is the sign of the signed reading. -/
theorem signBit_iff_toInt_neg (x : Word) : x.getLsbD 31 = true ↔ x.toInt < 0 := by
  have := x.isLt
  rw [signBit, decide_eq_true_iff, toInt_eq]
  split <;> omega

/-- N and V of a difference disagree exactly when the signed minuend is the smaller (40_condition.md, LT). -/
theorem sub_sign_ne_overflow_iff (a b : Word) :
    (a - b).getLsbD 31 ≠ subOverflows a b (a - b) ↔ a.toInt < b.toInt := by
  have hn := signBit_iff_toInt_neg (a - b)
  have hv := subOverflows_sub_iff a b
  have hwrap : (a - b).toInt = (a.toInt - b.toInt).bmod (2 ^ 32) := BitVec.toInt_sub
  have ha := a.toInt_lt
  have ha' := a.le_toInt
  have hb := b.toInt_lt
  have hb' := b.le_toInt
  rw [ne_eq, Bool.eq_iff_iff, hn, hv, hwrap, OutsideSigned, Int.bmod]
  split <;> omega

/-- Settles O9. The flags of a CMP are the sign, the zero test, the no-borrow and the overflow of the difference; each
row of the truth table is then a comparison. -/
theorem conditionsAfterCompare : Obligations.ConditionsAfterCompare := by
  intro cond rn rd op2 s t hpass hexec a b
  obtain ⟨hn, hz, hc, hv⟩ := exec_flags (i := .cmp cond rn rd op2) hpass rfl hexec
  change t.flag .n = (a - b).getLsbD 31 at hn
  change t.flag .z = (a - b == 0#32) at hz
  change t.flag .c = noBorrow a b false at hc
  change t.flag .v = subOverflows a b (a - b) at hv
  have hsign : t.flag .n = true ↔ (a - b).toInt < 0 := by rw [hn, signBit_iff_toInt_neg]
  have hequal : t.flag .z = true ↔ a = b := by rw [hz, beq_iff_eq]; exact sub_eq_zero
  have hborrow : t.flag .c = true ↔ b.toNat ≤ a.toNat := by rw [hc]; exact noBorrow_false_iff
  have hrange : t.flag .v = true ↔ OutsideSigned (a.toInt - b.toInt) := by rw [hv]; exact subOverflows_sub_iff a b
  have hless : t.flag .n ≠ t.flag .v ↔ a.toInt < b.toInt := by rw [hn, hv]; exact sub_sign_ne_overflow_iff a b
  have hdiffer : t.flag .z = false ↔ a ≠ b := by rw [← Bool.not_eq_true, hequal]
  have hnoCarry : t.flag .c = false ↔ a.toNat < b.toNat := by rw [← Bool.not_eq_true, hborrow, not_le]
  have hgreaterEq : t.flag .n = t.flag .v ↔ b.toInt ≤ a.toInt := by rw [← not_lt, ← hless, not_ne_iff]
  have hnat : a = b ↔ a.toNat = b.toNat := BitVec.toNat_inj.symm
  have hint : a = b ↔ a.toInt = b.toInt := BitVec.toInt_inj.symm
  obtain ⟨-, -, heq, hne, hcs, hcc, hmi, hpl, hvs, hvc, hhi, hls, hge, hlt, hgt, hle, -⟩ := conditionTruthTable t
  rw [heq, hne, hcs, hcc, hmi, hpl, hvs, hvc, hhi, hls, hge, hlt, hgt, hle]
  refine ⟨hequal, hdiffer, hborrow, hnoCarry, ?_, ?_, hgreaterEq, hless, ?_, ?_, hsign, ?_, hrange, ?_⟩
  · rw [hborrow, hdiffer, ne_eq, hnat]
    omega
  · rw [hnoCarry, hequal, hnat]
    omega
  · rw [hdiffer, hgreaterEq, ne_eq, hint]
    omega
  · rw [hequal, hless, hint]
    omega
  · rw [← Bool.not_eq_true, hsign, not_lt]
  · rw [← Bool.not_eq_true, hrange, OutsideSigned]
    omega

theorem bitWord_toNat (c : Bool) : (bitWord c).toNat = c.toNat := by
  cases c <;> rfl

/-- The sum of the high words with the carry of the low sum is the high word of the 64-bit sum. -/
theorem wide_add (a b hi ho : Word) :
    (hi + ho + bitWord (carriesOut a b false)).toNat * 2 ^ 32 + (a + b).toNat =
      ((hi.toNat * 2 ^ 32 + a.toNat) + (ho.toNat * 2 ^ 32 + b.toNat)) % 2 ^ 64 := by
  have ha := a.isLt
  have hb := b.isLt
  rw [BitVec.toNat_add, BitVec.toNat_add, BitVec.toNat_add, bitWord_toNat, carriesOut, Bool.toNat_false]
  by_cases h : 2 ^ 32 ≤ a.toNat + b.toNat + 0
  · rw [decide_eq_true h, Bool.toNat_true]
    omega
  · rw [decide_eq_false h, Bool.toNat_false]
    omega

/-- An instruction that ran and writes Rd leaves the operation table's result there (42_execute.md R87, R96). -/
theorem exec_reg_rd {i : Instr} {s t : State} (hwrites : writesRd i.opcode = true) (hpass : Passes i.cond s)
    (hexec : exec i s = .next t) :
    t.reg i.rd = aluResult i.opcode (s.reg i.rn) (resolve i.op2 s).value (s.flag .c) := by
  rw [eq_blockEffect_of_exec_next hpass hexec]
  exact (blockEffect_writesOnly i.toDecoded s hwrites).left

/-- Settles O58. The ADDS leaves its sum in Rd and its carry in C, which the ADC adds to the high words. -/
theorem addsThenAdcAddsWide : Obligations.AddsThenAdcAddsWide := by
  intro c1 c2 sf rnL rdL rnH rdH oL oH s t u hpassL hlow hpassH hhigh
  have hsumL : t.reg rdL = s.reg rnL + (resolve oL s).value :=
    exec_reg_rd (i := .add c1 true rnL rdL oL) rfl hpassL hlow
  have hsumH : u.reg rdH = t.reg rnH + (resolve oH t).value + bitWord (t.flag .c) :=
    exec_reg_rd (i := .adc c2 sf rnH rdH oH) rfl hpassH hhigh
  obtain ⟨-, -, hc, -⟩ := exec_flags (i := .add c1 true rnL rdL oL) hpassL rfl hlow
  change t.flag .c = carriesOut (s.reg rnL) (resolve oL s).value false at hc
  rw [hsumH, hsumL, hc]
  exact wide_add _ _ _ _

end Sys2Proof.Machine
end

section
/-! PROOFS. The outcomes of an instruction: their order, the two errors, and the output `wrote_pc` (42_execute.md R82,
R97; 60_exceptions.md R115 to R119). -/

namespace Sys2Proof.Machine

/-- The reserved condition is IllegalCondition whatever the flags (R116). -/
theorem exec_illegalCondition {i : Instr} (h : i.cond = .reserved) (s : State) :
    exec i s = .fault .illegalCondition := by
  rw [exec_eq_gate, gate, h]
  rfl

/-- An instruction whose condition fails changes nothing but the output `wrote_pc` (40_condition.md R65). -/
theorem exec_failed {i : Instr} {s : State} (h : FailsCond i.cond s) : exec i s = .next (s.setWrotePc false) := by
  rw [exec_eq_gate, gate, show s.evaluate i.cond = some false from h]

/-- The four outcomes of an instruction, in the order of 60_exceptions.md R119. -/
theorem exec_cases (i : Instr) (s : State) :
    (i.cond = .reserved ∧ exec i s = .fault .illegalCondition) ∨
    (FailsCond i.cond s ∧ exec i s = .next (s.setWrotePc false)) ∨
    (Passes i.cond s ∧ PcWithS i.setFlags i.rd ∧ exec i s = .fault .illegalDestination) ∨
    (Passes i.cond s ∧ ¬ PcWithS i.setFlags i.rd ∧ exec i s = .next (blockEffect i.toDecoded s)) := by
  rw [← evaluate_eq_none_iff s, exec_eq_gate]
  exact gate_cases _ _ _ _ _

/-- No instruction touches the calls still pending. -/
theorem exec_input {i : Instr} {s t : State} (h : exec i s = .next t) : t.input = s.input := by
  rcases exec_next h with ⟨-, rfl⟩ | ⟨-, -, rfl⟩
  · rfl
  · exact blockEffect_input _ _

theorem exec_not_refused (i : Instr) (s : State) (r : Refusal) : exec i s ≠ .refused r := by
  rw [exec_eq_gate]
  exact gate_not_refused _ _ _ _ _ _

theorem unchanged_setWrotePc_false (s : State) : Unchanged s (s.setWrotePc false) := ⟨fun _ => rfl, rfl, rfl⟩

/-- Settles O44. A failed condition answers `wrote_pc` 0; an instruction that ran sets it when it wrote R15, and it ran
with S = 0 then. -/
theorem wrotePcOutput : Obligations.WrotePcOutput := by
  intro i s t hexec
  refine ⟨?_, ?_, exec_input hexec⟩
  · rcases exec_next hexec with ⟨hfail, rfl⟩ | ⟨hpass, -, rfl⟩
    · simp [hfail.not_passes]
    · rw [blockEffect_wrotePc, Bool.and_eq_true, beq_iff_eq]
      exact (and_iff_right hpass).symm
  · rcases exec_next hexec with ⟨-, rfl⟩ | ⟨-, hd, rfl⟩
    · simp
    · rw [blockEffect_wrotePc, Bool.and_eq_true, beq_iff_eq]
      rintro ⟨-, hrd⟩
      exact Bool.eq_false_iff.mpr fun hset => hd ⟨hset, hrd⟩

/-- Settles O45. The four cases are those of the gate. -/
theorem outcomeOrder : Obligations.OutcomeOrder := fun _ s =>
  ⟨fun h => exec_illegalCondition h s, fun h => ⟨_, exec_failed h, unchanged_setWrotePc_false s⟩,
    exec_illegalDestination, fun hpass hd => ⟨_, exec_completes hpass hd⟩⟩

/-- Settles O46. The gate has no other outcome; MOV with the reserved condition and MOVS PC raise the two errors
in every state. -/
theorem twoErrorKinds : Obligations.TwoErrorKinds := by
  refine ⟨fun i s => ?_, fun s => ⟨?_, ?_⟩, opcodeCode_opcodeOfCode⟩
  · rcases exec_cases i s with ⟨-, h⟩ | ⟨-, h⟩ | ⟨-, -, h⟩ | ⟨-, -, h⟩
    · exact .inr (.inl h)
    · exact .inl ⟨_, h⟩
    · exact .inr (.inr h)
    · exact .inl ⟨_, h⟩
  · exact ⟨.mov .reserved false 0 0 (.imm 0 0), exec_illegalCondition rfl s⟩
  · exact ⟨.mov .al true 0 pcReg (.imm 0 0), exec_illegalDestination rfl ⟨rfl, rfl⟩⟩

/-- Settles O47. 1111 is the code of the reserved condition, in the block's reading and so in the instruction's. -/
theorem reservedConditionRejected : Obligations.ReservedConditionRejected := by
  intro w s hw
  have hcond : (decodeFields w).cond = .reserved := congrArg condOfCode hw
  refine ⟨⟨s.setWrotePc false, ?_, unchanged_setWrotePc_false s⟩, fun i hdec => ?_⟩
  · rw [blockExecute, hcond]
    rfl
  · exact exec_illegalCondition (by rw [Instr.cond, toDecoded_of_decodeWord hdec, hcond]) s

/-- Settles O48. The state after an error is the one before it, with `wrote_pc` 0. -/
theorem errorLeavesStateUnchanged : Obligations.ErrorLeavesStateUnchanged := by
  intro d s t status hexec herr
  have hstate := blockExecute_error d s
  rw [hexec] at hstate
  obtain rfl : t = s.setWrotePc false := hstate herr
  exact unchanged_setWrotePc_false s

end Sys2Proof.Machine
end

section
/-! PROOFS. A step and a run: what the host's writes do, which instruction a step runs, when it is refused, and the
invariant of a run (10_state.md R24; 60_exceptions.md R126 to R128; log 1, log 4). -/

namespace Sys2Proof.Machine

/-- Settles O51. The last write acts on the state the earlier ones left, by the laws of the register file and of the
status register. -/
theorem hostWritesBetweenSteps : Obligations.HostWritesBetweenSteps := by
  intro ws s
  simp only [applyHostWrites_append, applyHostWrites_cons, applyHostWrites_nil, applyHostWrite]
  exact ⟨fun r v => ⟨⟨setReg_reg_same _ r v, fun _ hq => setReg_reg_ne _ v hq⟩, rfl⟩,
    fun _ => ⟨rfl, fun _ => rfl⟩,
    fun f => ⟨fun _ => rfl, rfl, fun k _ => setFlag_bit _ f k⟩,
    fun f => ⟨fun _ => rfl, rfl, fun k _ => clearFlag_bit _ f k⟩⟩

section Step

variable {s : State} {c : HostCall} {rest : List HostCall}

theorem step_noCall (h : s.input = []) : step s = .refused .noCall := by
  rw [step, takeCall_nil h]

/-- A step runs the instruction the next call's word decodes to. -/
theorem step_of_decodeWord_ok {i : Instr} (h : s.input = c :: rest) (hdec : decodeWord c.word = .ok i) :
    step s = exec i (stateForCall c rest s) := by
  simp only [step, takeCall_cons h, hdec]

theorem step_of_decodeWord_error {e : DecodeError} (h : s.input = c :: rest) (hdec : decodeWord c.word = .error e) :
    step s = .refused (refusalOf e) := by
  simp only [step, takeCall_cons h, hdec]

/-- If a step answers a next state, a call was pending, its word decoded, and its instruction answered that state. -/
theorem step_next {t : State} (h : step s = .next t) :
    ∃ c rest i, s.input = c :: rest ∧ decodeWord c.word = .ok i ∧ exec i (stateForCall c rest s) = .next t := by
  cases hin : s.input with
  | nil =>
    rw [step_noCall hin] at h
    cases h
  | cons c rest =>
    cases hdec : decodeWord c.word with
    | error e =>
      rw [step_of_decodeWord_error hin hdec] at h
      cases h
    | ok i =>
      rw [step_of_decodeWord_ok hin hdec] at h
      exact ⟨c, rest, i, rfl, hdec, h⟩

/-- A step consumes its call. -/
theorem step_next_input {t : State} (hin : s.input = c :: rest) (h : step s = .next t) : t.input = rest := by
  obtain ⟨c', rest', i, hin', -, hexec⟩ := step_next h
  obtain ⟨rfl, rfl⟩ : c' = c ∧ rest' = rest := by simpa [hin] using hin'.symm
  exact exec_input hexec

/-- With a call pending a step is refused exactly when the word is not of the class (30_encoding.md R55, D14). -/
theorem step_refused_iff (h : s.input = c :: rest) : (∃ r, step s = .refused r) ↔ isDPClass c.word = false := by
  cases hdec : decodeWord c.word with
  | ok i =>
    have hclass : isDPClass c.word = true := (exists_decodeWord_iff c.word).mp ⟨i, hdec⟩
    rw [step_of_decodeWord_ok h hdec, hclass]
    exact iff_of_false (fun ⟨r, hr⟩ => exec_not_refused i _ r hr) (by decide)
  | error e =>
    rw [step_of_decodeWord_error h hdec]
    refine iff_of_true ⟨_, rfl⟩ (Bool.eq_false_iff.mpr fun hclass => ?_)
    rw [decodeWord_class hclass] at hdec
    cases hdec

end Step

/-- The bytes of a word decode to the instruction the word decodes to. -/
theorem decode_wordBytes_eq_ok_iff {w : Word} {i : Instr} {rest : List Byte} :
    decode (wordBytes w) = .ok (i, rest) ↔ decodeWord w = .ok i ∧ rest = [] := by
  have hbytes := decode_wordBytes w []
  rw [List.append_nil] at hbytes
  rw [hbytes]
  cases decodeWord w with
  | ok j => simp [eq_comm]
  | error e => simp

theorem decodeWord_of_decodeTableWord {n w : Nat} {i : Instr} (h : decodeTableWord n w = some i) :
    decodeWord (tableWord n w) = .ok i := by
  unfold decodeTableWord at h
  split at h
  next j rest hdec =>
    cases h
    exact (decode_wordBytes_eq_ok_iff.mp hdec).left
  next => cases h

/-- Settles O6. A word's bytes decode as the word does, and the step runs what the word decodes to. -/
theorem stepRunsTheDecodedInstruction : Obligations.StepRunsTheDecodedInstruction := by
  intro s c rest i hin hdec
  exact step_of_decodeWord_ok hin (decode_wordBytes_eq_ok_iff.mp hdec).left

/-- Settles O7. The placed call has no write and is consumed, so the instruction starts from the state as it was. -/
theorem fetchWordRunsNext : Obligations.FetchWordRunsNext := by
  intro s w i h
  have hin : (s.withFetchWord 32 w).input = ⟨[], tableWord 32 w⟩ :: s.input := rfl
  rw [step_of_decodeWord_ok hin (decodeWord_of_decodeTableWord h)]
  rfl

/-- Settles O50. Without a call the step is refused; with one it is the word's class that decides. -/
theorem refusedExactlyOutsideTheClass : Obligations.RefusedExactlyOutsideTheClass := by
  intro s
  cases hin : s.input with
  | nil => exact iff_of_true ⟨_, step_noCall hin⟩ (.inl rfl)
  | cons c rest =>
    rw [step_refused_iff hin]
    simp

/-- An instruction answers what the block answers on its fields. -/
theorem exec_eq_outcomeOf_blockExecute (i : Instr) (s : State) :
    exec i s = outcomeOf (blockExecute i.toDecoded s) := by
  rw [exec_eq_gate, outcomeOf_blockExecute]

/-- Settles O49. On a word of the class the decoded instruction has the fields the block reads. -/
theorem stepRefinesBlock : Obligations.StepRefinesBlock := by
  intro s c rest hin hclass
  have hdec := decodeWord_class hclass
  refine ⟨blockExecute (decodeFields c.word) (stateForCall c rest s), ?_, ?_⟩
  · rw [blockStep, takeCall_cons hin]
    rfl
  · rw [step_of_decodeWord_ok hin hdec, exec_eq_outcomeOf_blockExecute, toDecoded_of_decodeWord hdec]

/-- Settles O54. By induction on the number of steps: a step on a word of the class is not refused, and it leaves one
call less, again with words of the class. -/
theorem runNeverRefused : Obligations.RunNeverRefused := by
  intro s k r
  induction k generalizing s with
  | zero => exact nofun
  | succ k ih =>
    intro hclass hlen
    cases hin : s.input with
    | nil => simp [hin] at hlen
    | cons c rest =>
      rw [hin] at hclass hlen
      rw [runSteps]
      cases hstep : step s with
      | next t =>
        have hrest := step_next_input hin hstep
        refine ih t (fun d hd => hclass d ?_) ?_
        · exact List.mem_cons_of_mem c (hrest ▸ hd)
        · rw [hrest]
          exact Nat.le_of_succ_le_succ hlen
      | fault e => exact nofun
      | refused q =>
        have hout := (step_refused_iff hin).mp ⟨q, hstep⟩
        have hin' : isDPClass c.word = true := hclass c List.mem_cons_self
        rw [hin'] at hout
        cases hout

/-- Status bits 27:0 are all outside N, Z, C and V. -/
theorem extractLsb'_eq_of_sameReservedBits {s t : State} (h : SameReservedBits s t) :
    t.cpsr.extractLsb' 0 28 = s.cpsr.extractLsb' 0 28 := by
  apply BitVec.eq_of_getLsbD_eq
  intro k hk
  have hnot : ¬ isNZCVBit k := by
    simp only [isNZCVBit, flagPos]
    omega
  simpa [hk] using h k (by omega) hnot

theorem SameReservedBits.trans {s t u : State} (hst : SameReservedBits s t) (htu : SameReservedBits t u) :
    SameReservedBits s u := fun k hk hnot => (htu k hk hnot).trans (hst k hk hnot)

/-- A host write of the kinds the invariant admits leaves the reserved bits alone. -/
theorem applyHostWrite_sameReservedBits (s : State) {w : HostWrite} (h : HostWrite.keepsReserved w = true) :
    SameReservedBits s (applyHostWrite s w) := by
  intro k _ hnot
  cases w with
  | reg r v => rfl
  | status v => cases h
  | setFlag f => exact setFlag_bit_of_ne _ (ne_flagPos_of_not_isNZCVBit hnot (of_decide_eq_true h))
  | clearFlag f => exact clearFlag_bit_of_ne _ (ne_flagPos_of_not_isNZCVBit hnot (of_decide_eq_true h))

theorem applyHostWrites_sameReservedBits (ws : List HostWrite) (s : State)
    (h : ∀ w ∈ ws, HostWrite.keepsReserved w = true) : SameReservedBits s (applyHostWrites ws s) := by
  induction ws generalizing s with
  | nil => exact fun _ _ _ => rfl
  | cons w ws ih =>
    obtain ⟨hw, hws⟩ := List.forall_mem_cons.mp h
    exact (applyHostWrite_sameReservedBits s hw).trans (ih _ hws)

/-- Settles O52. Neither the call's writes nor its instruction touches the reserved bits, and the calls left are among
those pending before. -/
theorem runInvariantKept : Obligations.RunInvariantKept := by
  intro reserved s t hinv hstep
  obtain ⟨hbits, hcalls⟩ := hinv
  obtain ⟨c, rest, i, hin, -, hexec⟩ := step_next hstep
  rw [hin] at hcalls
  obtain ⟨⟨-, hwrites⟩, hrest⟩ := List.forall_mem_cons.mp hcalls
  have hhost : SameReservedBits s (stateForCall c rest s) := applyHostWrites_sameReservedBits c.writes s hwrites
  have hinstr : SameReservedBits (stateForCall c rest s) t := reservedBitsPreserved.left i _ t hexec
  refine ⟨?_, ?_⟩
  · rw [extractLsb'_eq_of_sameReservedBits (hhost.trans hinstr), hbits]
  · rw [step_next_input hin hstep]
    exact hrest

/-- Settles O53. The bits are the parameter's own, and no call is pending. -/
theorem runInvariantAtStart : Obligations.RunInvariantAtStart := by
  intro initRegs initStatus
  refine ⟨rfl, fun c hc => ?_⟩
  cases hc

/-- Settles O59. Each field is the parameter, and reset is a start for the parameters of Config. -/
theorem startHoldsTheParameters : Obligations.StartHoldsTheParameters := fun _ _ =>
  ⟨fun _ => rfl, rfl, rfl, rfl, Config.initRegs, Config.initStatus, rfl⟩

end Sys2Proof.Machine
end

section
/-! PROOFS. Non-interference: a register an instruction does not read, and the two ports, have no influence
(41_shifter.md R69; 42_execute.md R83; 10_state.md R15; log 1). -/

namespace Sys2Proof.Machine

/-- The two states give the fields of a word the same status word, operand 2 and, where the operation uses it, operand 1
(42_execute.md R83). -/
structure SameOperands (d : DecodedInstruction) (s u : State) : Prop where
  cpsr : s.cpsr = u.cpsr
  op2  : resolve d.op2 s = resolve d.op2 u
  op1  : s.reg d.rn = u.reg d.rn ∨ d.opcode = .mov ∨ d.opcode = .mvn

/-- The operation table's result in a state. -/
abbrev resultIn (d : DecodedInstruction) (s : State) : Word :=
  aluResult d.opcode (s.reg d.rn) (resolve d.op2 s).value (s.flag .c)

/-- Rd holds the result after the block's effect if the operation writes it; every other register is as before (R96). -/
theorem blockEffect_reg (d : DecodedInstruction) (s : State) (r : RegId) :
    (blockEffect d s).reg r = if writesRd d.opcode = true ∧ r = d.rd then resultIn d s else s.reg r := by
  cases hw : writesRd d.opcode with
  | true =>
    obtain ⟨hrd, hother⟩ := blockEffect_writesOnly d s hw
    by_cases hr : r = d.rd
    · rw [if_pos ⟨rfl, hr⟩, hr, hrd]
    · rw [if_neg fun h => hr h.right, hother r hr]
  | false => rw [if_neg fun h => Bool.false_ne_true h.left, blockEffect_writesNothing d s hw r]

section SameOperands

variable {d : DecodedInstruction} {s u : State}

theorem SameOperands.resultIn_eq (h : SameOperands d s u) : resultIn d s = resultIn d u := by
  rw [resultIn, resultIn, h.op2, flag_congr h.cpsr]
  rcases h.op1 with hreg | hop | hop
  · rw [hreg]
  · rw [hop]
    rfl
  · rw [hop]
    rfl

theorem SameOperands.blockEffect_cpsr_eq (h : SameOperands d s u) :
    (blockEffect d s).cpsr = (blockEffect d u).cpsr := by
  have hres : aluResult d.opcode (s.reg d.rn) (resolve d.op2 s).value (s.flag .c) =
      aluResult d.opcode (u.reg d.rn) (resolve d.op2 u).value (u.flag .c) := h.resultIn_eq
  rw [blockEffect_cpsr, blockEffect_cpsr, hres, h.op2]
  simp only [blockStatus, h.cpsr, flag_congr h.cpsr]
  rcases h.op1 with hreg | hop | hop
  · rw [hreg]
  · rw [hop]
    rfl
  · rw [hop]
    rfl

end SameOperands

/-- Two states with the same status word give an instruction the same fault, or next states by the same rule. -/
theorem exec_congr (i : Instr) {s u : State} (h : s.cpsr = u.cpsr) :
    (∃ e, exec i s = .fault e ∧ exec i u = .fault e) ∨
    (FailsCond i.cond s ∧ exec i s = .next (s.setWrotePc false) ∧ exec i u = .next (u.setWrotePc false)) ∨
    (Passes i.cond s ∧ exec i s = .next (blockEffect i.toDecoded s) ∧
      exec i u = .next (blockEffect i.toDecoded u)) := by
  have heval := evaluate_congr h i.cond
  rcases exec_cases i s with ⟨hres, hs⟩ | ⟨hfail, hs⟩ | ⟨hpass, hd, hs⟩ | ⟨hpass, hd, hs⟩
  · exact .inl ⟨_, hs, exec_illegalCondition hres u⟩
  · exact .inr (.inl ⟨hfail, hs, exec_failed (heval.symm.trans hfail)⟩)
  · exact .inl ⟨_, hs, exec_illegalDestination (heval.symm.trans hpass) hd⟩
  · exact .inr (.inr ⟨hpass, hs, exec_completes (heval.symm.trans hpass) hd⟩)

theorem not_mem_reads {i : Instr} {q : RegId} (h : q ∉ reads i) :
    q ∉ Operand2.reads i.op2 ∧ (q ≠ i.rn ∨ i.opcode = .mov ∨ i.opcode = .mvn) := by
  unfold reads at h
  split at h
  next hop => exact ⟨h, .inr (.inl hop)⟩
  next hop => exact ⟨h, .inr (.inr hop)⟩
  next =>
    obtain ⟨hrn, hop2⟩ := not_or.mp (List.mem_cons.not.mp h)
    exact ⟨hop2, .inl hrn⟩

/-- Operand 2 does not see a register it does not read (41_shifter.md R69). -/
theorem resolve_setReg_of_not_mem (o : Operand2) (s : State) {q : RegId} (v : Word) (h : q ∉ Operand2.reads o) :
    resolve o (s.setReg q v) = resolve o s := by
  cases o with
  | imm rotate imm8 => rfl
  | regImm rm shift n =>
    have hrm : rm ≠ q := by simpa [Operand2.reads, eq_comm] using h
    simp [hrm]
  | regReg rm shift rs =>
    have hne : rm ≠ q ∧ rs ≠ q := by simpa [Operand2.reads, eq_comm] using h
    simp [hne]

theorem sameOperands_setReg {i : Instr} {q : RegId} (h : q ∉ reads i) (s : State) (v : Word) :
    SameOperands i.toDecoded (s.setReg q v) s := by
  obtain ⟨hop2, hop1⟩ := not_mem_reads h
  exact ⟨rfl, resolve_setReg_of_not_mem _ s v hop2, hop1.imp_left fun hq => setReg_reg_ne s v hq.symm⟩

/-- Settles O55. The status word decides the outcome, and the operands decide the effect; the register's old value is left
only where nothing was written. -/
theorem unreadRegisterHasNoInfluence : Obligations.UnreadRegisterHasNoInfluence := by
  intro i s q v hq
  have hsame := sameOperands_setReg hq s v
  rcases exec_congr i (s := s) (u := s.setReg q v) rfl with ⟨e, hs, hu⟩ | ⟨hfail, hs, hu⟩ | ⟨hpass, hs, hu⟩
  · rw [hs, hu]
    exact ⟨fun _ h => h, nofun⟩
  · rw [hs, hu]
    refine ⟨nofun, ?_⟩
    rintro t ⟨⟩
    exact ⟨_, rfl, fun r hr => setReg_reg_ne s v hr, rfl, rfl, fun hp => absurd hp hfail.not_passes⟩
  · rw [hs, hu]
    refine ⟨nofun, ?_⟩
    rintro t ⟨⟩
    refine ⟨_, rfl, fun r hr => ?_, hsame.blockEffect_cpsr_eq, rfl, fun _ hw hrd => ?_⟩
    · rw [blockEffect_reg, blockEffect_reg, hsame.resultIn_eq, setReg_reg_ne s v hr]
    · rw [blockEffect_reg, blockEffect_reg, hsame.resultIn_eq, if_pos ⟨hw, hrd.symm⟩, if_pos ⟨hw, hrd.symm⟩]

/-- Two states with the same registers and the same status word: they differ in the ports at most (10_state.md R15). -/
def SameButPorts (s u : State) : Prop := s.regs = u.regs ∧ s.cpsr = u.cpsr

section Ports

variable {s u : State}

theorem SameButPorts.reg (h : SameButPorts s u) (r : RegId) : s.reg r = u.reg r := by
  rw [State.reg, State.reg, h.left]

theorem SameButPorts.applyHostWrite (h : SameButPorts s u) (w : HostWrite) :
    SameButPorts (applyHostWrite s w) (applyHostWrite u w) := by
  obtain ⟨hregs, hcpsr⟩ := h
  cases w with
  | reg r v => exact ⟨congrArg (Vector.set · r v) hregs, hcpsr⟩
  | status v => exact ⟨hregs, rfl⟩
  | setFlag f => exact ⟨hregs, congrArg (setFlag · f) hcpsr⟩
  | clearFlag f => exact ⟨hregs, congrArg (clearFlag · f) hcpsr⟩

theorem SameButPorts.applyHostWrites (h : SameButPorts s u) (ws : List HostWrite) :
    SameButPorts (applyHostWrites ws s) (applyHostWrites ws u) := by
  induction ws generalizing s u with
  | nil => exact h
  | cons w ws ih => exact ih (h.applyHostWrite w)

theorem SameButPorts.sameOperands (h : SameButPorts s u) (d : DecodedInstruction) : SameOperands d s u :=
  ⟨h.right, resolve_congr h.reg (flag_congr h.right .c) d.op2, .inl (h.reg d.rn)⟩

/-- From states that differ in the ports the block's effects differ in the pending calls. -/
theorem SameButPorts.blockEffect_eq (h : SameButPorts s u) (d : DecodedInstruction) :
    blockEffect d u = (blockEffect d s).setInput u.input := by
  have hsame := h.sameOperands d
  refine state_ext (fun r => ?_) hsame.blockEffect_cpsr_eq.symm rfl (blockEffect_input d u)
  rw [setInput_reg, blockEffect_reg, blockEffect_reg, hsame.resultIn_eq, h.reg]

theorem SameButPorts.setWrotePc_eq (h : SameButPorts s u) :
    u.setWrotePc false = (s.setWrotePc false).setInput u.input :=
  state_ext (fun r => (h.reg r).symm) h.right.symm rfl rfl

end Ports

/-- Settles O56. The calls' states differ in the ports only; the next states are then by the same rule, and the ports do
not enter it. -/
theorem portsHaveNoInfluence : Obligations.PortsHaveNoInfluence := by
  intro s u c rest later hs hu hregs hcpsr
  cases hdec : decodeWord c.word with
  | error e =>
    rw [step_of_decodeWord_error hs hdec, step_of_decodeWord_error hu hdec]
    exact ⟨nofun, nofun, fun _ h => h⟩
  | ok i =>
    have hsame : SameButPorts (stateForCall c rest s) (stateForCall c later u) :=
      SameButPorts.applyHostWrites ⟨hregs, hcpsr⟩ c.writes
    rw [step_of_decodeWord_ok hs hdec, step_of_decodeWord_ok hu hdec]
    rcases exec_congr i hsame.right with ⟨e, hes, heu⟩ | ⟨-, hes, heu⟩ | ⟨-, hes, heu⟩
    · rw [hes, heu]
      exact ⟨nofun, fun _ h => h, nofun⟩
    · rw [hes, heu]
      refine ⟨?_, nofun, nofun⟩
      rintro t ⟨⟩
      rw [hsame.setWrotePc_eq]
      rfl
    · rw [hes, heu]
      refine ⟨?_, nofun, nofun⟩
      rintro t ⟨⟩
      rw [hsame.blockEffect_eq]
      rfl

end Sys2Proof.Machine
end
